-- ==== Sys2Proof/Word.lean ====
section
/-! DEFINITION. The word types of the hardware's port, command register and byte registers. -/

namespace Sys2Proof

/-- An 8-bit unsigned register: `N`, `KEY_LEN`, `KEY_CHAR[k]`, `TRACE_LEN`, `TR_IDX[k]` (R23), and a GF(2^8) field element (R140). -/
abbrev Byte := BitVec 8

/-- A 32-bit unsigned register: `CFG`, `CMD`, `STATUS` (R23); the command word (R90). -/
abbrev CmdWord := BitVec 32

/-- The data word of the host port, PW = 64 bits (R9, R71). -/
abbrev PortWord := BitVec 64

/-- The 12-bit register index of the host port (R70, R71). -/
abbrev Index := BitVec 12

/-- The contents of a matrix register array, row first (R37, R43). -/
abbrev Grid := List (List Int)

end Sys2Proof
end

