-- ==== Sys2Proof/Config.lean ====
section
/-! DEFINITION. What an implementation fixes (the parameters of R9, the constants of R10) and the free values. -/

namespace Sys2Proof.Config

/-- The implementation parameters of R9 that have a range.
`XW` is fixed at `W + 1` and `PW` at 64, so neither is a field. -/
structure Params where
  /-- `W`: width of the signed operand registers. -/
  w : Nat
  /-- `NMAX`: largest matrix dimension. -/
  nmax : Nat
  /-- `TRACE_DEPTH`: number of trace rows held. -/
  traceDepth : Nat
  deriving DecidableEq, Repr

/-- The legal ranges of R9. -/
abbrev Params.legal (p : Params) : Prop :=
  2 ≤ p.w ∧ p.w ≤ 63 ∧ 1 ≤ p.nmax ∧ p.nmax ≤ 15 ∧ 2 * p.w - 2 ≤ p.traceDepth ∧ p.traceDepth ≤ 128

/-- `XW`, the width of `RES_X`, `RES_Y`, `TR_Q`, `TR_X`, `TR_Y` (R9). -/
def Params.xw (p : Params) : Nat := p.w + 1

/-- The reference values of R9: W = 32, NMAX = 4, TRACE_DEPTH = 64. -/
def Params.reference : Params := { w := 32, nmax := 4, traceDepth := 64 }

/-- `POLY`, the reduction polynomial x^8 + x^4 + x^3 + x + 1 (R10). -/
def poly : Nat := 0x11B

/-- `ALPHA`, the size of the key loader's alphabet (R10). -/
def alpha : Nat := 26

/-- FREE VALUE (log entry 5): the word a read returns while a command is in progress, for any mapped register but `CFG`, `CMD`
and `STATUS` (R47, I1). Applied to a counter, so that each read draws anew. -/
opaque freeRead : Nat → PortWord

/-- FREE VALUE (log entry 6): what `RES_V` takes when a GF(2^8) result does not fit its W bits (possible only for W <= 8), as a
function of W, the opcode and the operands read, since R205 makes a completion's writes depend on nothing else. -/
opaque freeFieldResult : (w op : Nat) → (a b : Int) → Nat

end Sys2Proof.Config
end

