-- ==== Sys2Proof/Syntax.lean ====
section
/-! DEFINITION. The commands (one constructor per row of spec/opcode_table.json), the register names of the host port, and the
host's transactions and pseudo-instructions. -/

namespace Sys2Proof

/-- The ten commands of R91. A command has no register specifier and no immediate (R90), so no constructor has a field. -/
inductive Instr where
  /-- 0x01 `EXTGCD` (R118) -/
  | extgcd
  /-- 0x02 `MODINV` (R119) -/
  | modinv
  /-- 0x10 `GFADD` (R150) -/
  | gfadd
  /-- 0x11 `GFSUB` (R151) -/
  | gfsub
  /-- 0x12 `GFMUL` (R152) -/
  | gfmul
  /-- 0x13 `GFINV` (R153) -/
  | gfinv
  /-- 0x14 `GFDIV` (R154) -/
  | gfdiv
  /-- 0x20 `DETMOD` (R183) -/
  | detmod
  /-- 0x21 `MATINV` (R184) -/
  | matinv
  /-- 0x22 `MATKEY` (R185) -/
  | matkey
  deriving DecidableEq, Repr

/-- The six registers of a trace row (R42). -/
inductive TraceField where
  | idx
  | qv
  | rem
  | q
  | x
  | y
  deriving DecidableEq, Repr

/-- The register names of the register map (R23). -/
inductive Reg where
  | cfg
  | cmd
  | status
  | a
  | b
  | m
  | n
  | keyLen
  | resG
  | resX
  | resY
  | resV
  | traceLen
  | keyChar (k : Nat)
  | matIn (i j : Nat)
  | matOut (i j : Nat)
  | trace (k : Nat) (f : TraceField)
  deriving DecidableEq, Repr

/-- The rights of the host on a register (R23): read-only, read and write, or the command register. -/
inductive Access where
  | ro
  | rw
  | rc
  deriving DecidableEq, Repr

/-- What the host does next: a transaction of R71, or the polling loop `WAIT` of R101. -/
inductive HostOp where
  /-- `WR(index, data)` (R71) -/
  | wr (index : Index) (data : PortWord)
  /-- `RD(index)` (R71) -/
  | rd (index : Index)
  /-- `WAIT`: read `STATUS` until its bit 0 is 0 (R101) -/
  | wait
  deriving DecidableEq, Repr

/-- The lines of a host program: plain transactions (R96) and pseudo-instructions (R98, R99, R101). The label and `BNZ` of R96 appear
only inside `WAIT`, which is one host step that repeats itself. -/
inductive Pseudo where
  /-- `WR <reg>, <value>` (R96); a quoted character is its code -/
  | wr (r : Reg) (v : Int)
  /-- `RD <reg>` (R96) -/
  | rd (r : Reg)
  /-- `WR <index>, <value>`, the register as a numeric index (R96) -/
  | wrIndex (index : Index) (v : Int)
  /-- `RD <index>` (R96) -/
  | rdIndex (index : Index)
  /-- `CMD <mnemonic>` (R98) -/
  | cmd (i : Instr)
  /-- `WAIT` (R101) -/
  | wait
  /-- `RUN <mnemonic>` (R101) -/
  | run (i : Instr)
  /-- `LDKEY "<s>"` (R99), the string as its bytes -/
  | ldkey (s : List Byte)
  /-- `LDMAT <n>, [[..], ..]` (R99) -/
  | ldmat (n : Nat) (rows : Grid)
  /-- `RDMAT <n>` (R99) -/
  | rdmat (n : Nat)
  /-- `RDTRACE <t>` (R99) -/
  | rdtrace (t : Nat)
  deriving DecidableEq, Repr

/-- Who takes the next step of an execution: the host, the engine (R20), or the reset input (R232). -/
inductive Turn where
  | host
  | engine
  | reset
  deriving DecidableEq, Repr

end Sys2Proof
end

