-- ==== Sys2Proof/WellFormed.lean ====
section
/-! DEFINITION. Which terms of the syntax stand for something the spec defines. -/

namespace Sys2Proof

/-- Every command is well formed: it has no field (R90, R94). -/
def Instr.wellFormed : Instr → Bool
  | .extgcd => true
  | .modinv => true
  | .gfadd => true
  | .gfsub => true
  | .gfmul => true
  | .gfinv => true
  | .gfdiv => true
  | .detmod => true
  | .matinv => true
  | .matkey => true

/-- A register name stands for a register of the implementation with parameters `p` (R23). -/
def Reg.wellFormed (p : Config.Params) : Reg → Bool
  | .keyChar k => decide (k < p.nmax * p.nmax)
  | .matIn i j => decide (i < p.nmax) && decide (j < p.nmax)
  | .matOut i j => decide (i < p.nmax) && decide (j < p.nmax)
  | .trace k _ => decide (k < p.traceDepth)
  | .cfg | .cmd | .status | .a | .b | .m | .n | .keyLen | .resG | .resX | .resY | .resV | .traceLen => true

/-- A value a host program can write: a negative number denotes its 64-bit two's-complement word (R96). -/
def isPortValue (v : Int) : Bool := decide (-2 ^ 63 ≤ v) && decide (v < 2 ^ 64)

/-- A line of a host program names only registers that exist and values a port word can hold (R96, R99). An index may be any (R44). -/
def Pseudo.wellFormed (p : Config.Params) : Pseudo → Bool
  | .wr r v => r.wellFormed p && isPortValue v
  | .rd r => r.wellFormed p
  | .wrIndex _ v => isPortValue v
  | .rdIndex _ => true
  | .cmd i => i.wellFormed
  | .wait => true
  | .run i => i.wellFormed
  | .ldkey s => decide (s.length ≤ p.nmax * p.nmax)
  | .ldmat n rows =>
      decide (n ≤ p.nmax) && decide (rows.length = n)
        && rows.all (fun row => decide (row.length = n) && row.all isPortValue)
  | .rdmat n => decide (n ≤ p.nmax)
  | .rdtrace t => decide (t ≤ p.traceDepth)

end Sys2Proof
end

