-- ==== Sys2Proof/Decode.lean ====
section
/-! DEFINITION. Decoding of command words (R90 to R93, R208), total and rejecting by name, and the encoder. -/

namespace Sys2Proof

/-- Why a command word is illegal. Both complete with `ILLEGAL_CMD` (R208). -/
inductive DecodeReject where
  /-- one of bits [31:8] is set (R92) -/
  | reservedBits
  /-- bits [7:0] are no opcode of R91 (R93) -/
  | unassignedOpcode
  deriving DecidableEq, Repr

/-- `OP`, bits [7:0] of the command word (R90). -/
def opField (word : CmdWord) : BitVec 8 := word.extractLsb' 0 8

/-- `RSV`, bits [31:8] of the command word (R90). -/
def rsvField (word : CmdWord) : BitVec 24 := word.extractLsb' 8 24

/-- The command an opcode selects, in the order of R91's table. -/
def decodeOp (op : BitVec 8) : Option Instr :=
  if op = 0x01#8 then some .extgcd
  else if op = 0x02#8 then some .modinv
  else if op = 0x10#8 then some .gfadd
  else if op = 0x11#8 then some .gfsub
  else if op = 0x12#8 then some .gfmul
  else if op = 0x13#8 then some .gfinv
  else if op = 0x14#8 then some .gfdiv
  else if op = 0x20#8 then some .detmod
  else if op = 0x21#8 then some .matinv
  else if op = 0x22#8 then some .matkey
  else none

/-- The decoder of R208: reserved bits first, then the opcode. -/
def decode (word : CmdWord) : Except DecodeReject Instr :=
  if rsvField word ≠ 0#24 then .error .reservedBits
  else
    match decodeOp (opField word) with
    | some i => .ok i
    | none => .error .unassignedOpcode

/-- The opcode of a command (R91). -/
def opcode : Instr → BitVec 8
  | .extgcd => 0x01#8
  | .modinv => 0x02#8
  | .gfadd => 0x10#8
  | .gfsub => 0x11#8
  | .gfmul => 0x12#8
  | .gfinv => 0x13#8
  | .gfdiv => 0x14#8
  | .detmod => 0x20#8
  | .matinv => 0x21#8
  | .matkey => 0x22#8

/-- The command word of a command: its opcode under zero reserved bits (R90, R98). -/
def encode (i : Instr) : CmdWord := 0#24 ++ opcode i

/-- What the decoder reads from an instruction of the opcode table whose `nbits` bits are `w`, every bit above them 0. The command
word has 32 bits and the port drops the rest (R90). -/
def decodeTableWord (nbits w : Nat) : Option Instr :=
  match decode (BitVec.ofNat 32 (w % 2 ^ nbits)) with
  | .ok i => some i
  | .error _ => none

end Sys2Proof
end

