-- ==== Sys2Proof/Machine/State.lean ====
section
/-! DEFINITION. The state of the machine as plain data: every register of the register map (R23), the host side, and reset (R230). -/

namespace Sys2Proof.Machine

open Sys2Proof.Config

/-- The error codes a completion can report (R200).
The reserved codes 6, 7 and 11 to 15 are never produced, so the type does not contain them. -/
inductive ErrCode where
  | none
  | notInvertible
  | zeroNoInverse
  | divByZero
  | notInvertibleModM
  | invalidKeyLength
  | illegalCmd
  | invalidOperand
  | unsupportedSize
  deriving DecidableEq, Repr

/-- The fields of `STATUS` (R26). Its reserved bits read 0 and hold nothing. -/
structure Status where
  busy : Bool
  done : Bool
  err : Bool
  rej : Bool
  errcode : ErrCode
  deriving DecidableEq, Repr

/-- The six registers of one trace row (R42). -/
structure TraceRow where
  /-- `TR_IDX[k]`, 8 bits unsigned -/
  idx : Byte
  /-- `TR_QV[k]`, 1 bit -/
  qv : Bool
  /-- `TR_REM[k]`, W bits signed -/
  rem : Int
  /-- `TR_Q[k]`, XW bits signed -/
  q : Int
  /-- `TR_X[k]`, XW bits signed -/
  x : Int
  /-- `TR_Y[k]`, XW bits signed -/
  y : Int
  deriving DecidableEq, Repr

/-- The row every trace row is at reset, and every row at or above `TRACE_LEN` (R42, R230). -/
def TraceRow.zero : TraceRow := { idx := 0#8, qv := false, rem := 0, q := 0, x := 0, y := 0 }

/-- The operand registers (R31 to R37). A signed register holds its two's-complement value (R11). -/
structure Operands where
  /-- `A`, W bits signed -/
  a : Int
  /-- `B`, W bits signed -/
  b : Int
  /-- `M`, W bits signed -/
  m : Int
  /-- `N`, 8 bits unsigned -/
  n : Byte
  /-- `KEY_LEN`, 8 bits unsigned -/
  keyLen : Byte
  /-- `KEY_CHAR[k]`, NMAX*NMAX registers of 8 bits unsigned -/
  keyChar : List Byte
  /-- `MAT_IN[i][j]`, NMAX rows of NMAX registers, W bits signed -/
  matIn : Grid
  deriving DecidableEq, Repr

/-- The result registers (R38 to R43). -/
structure Results where
  /-- `RES_G`, W bits signed -/
  g : Int
  /-- `RES_X`, XW bits signed -/
  x : Int
  /-- `RES_Y`, XW bits signed -/
  y : Int
  /-- `RES_V`, W bits signed -/
  v : Int
  /-- `TRACE_LEN`, 8 bits unsigned -/
  traceLen : Byte
  /-- the TRACE_DEPTH trace rows -/
  trace : List TraceRow
  /-- `MAT_OUT[i][j]`, NMAX rows of NMAX registers, W bits signed -/
  matOut : Grid
  deriving DecidableEq, Repr

/-- One read the host has made: the index and the port word returned. -/
structure PortRead where
  index : Index
  word : PortWord
  deriving DecidableEq, Repr

/-- The model's own fields for what stands outside the engine: the host's program, who steps next, and what the host has read. -/
structure Env where
  /-- the host's transactions still to come, in its program order (R20, R71) -/
  program : List HostOp
  /-- which agent takes each of the next steps (R78, R232); when empty, the engine goes first while busy (R241) -/
  turns : List Turn
  /-- the words reads have returned, newest first -/
  reads : List PortRead
  /-- how many free values reads have drawn (R47) -/
  draws : Nat
  deriving DecidableEq, Repr

/-- The machine's state. The hidden state of R48 exists only inside a completion, which is one step (R205). -/
structure State where
  /-- the parameters `CFG` reports (R24), constant -/
  cfg : Params
  /-- `CMD`, the last accepted command word (R25) -/
  cmd : CmdWord
  /-- `STATUS` (R26) -/
  status : Status
  /-- the operand registers -/
  ops : Operands
  /-- the result registers -/
  res : Results
  /-- the host side -/
  env : Env
  deriving DecidableEq, Repr

/-- No rule of the spec stops the machine: every failure is an error completion, after which it goes on (R207, R212).
So there is no fault, and the type has no constructor. -/
inductive Fault where
  deriving DecidableEq, Repr

/-- Why a step has no meaning. -/
inductive Refusal where
  /-- Raised by an arm of `exec` that has no meaning yet; no arm is left that raises it. Safe: the run stops. -/
  | notModelled (mnemonic : String)
  deriving DecidableEq, Repr

/-- `STATUS` after reset: 0 (R230). -/
def Status.idle : Status := { busy := false, done := false, err := false, rej := false, errcode := .none }

/-- A matrix register array of zeros. -/
def zeroGrid (nmax : Nat) : Grid := List.replicate nmax (List.replicate nmax 0)

/-- The operand registers after reset (R230). -/
def Operands.reset (p : Params) : Operands :=
  { a := 0, b := 0, m := 0, n := 0#8, keyLen := 0#8
    keyChar := List.replicate (p.nmax * p.nmax) 0#8
    matIn := zeroGrid p.nmax }

/-- The result registers after reset (R230). -/
def Results.reset (p : Params) : Results :=
  { g := 0, x := 0, y := 0, v := 0, traceLen := 0#8
    trace := List.replicate p.traceDepth TraceRow.zero
    matOut := zeroGrid p.nmax }

/-- The host side with nothing asked, nothing scheduled and nothing read (log entries 4 and 5). -/
def Env.empty : Env := { program := [], turns := [], reads := [], draws := 0 }

/-- The state after reset of the implementation with parameters `p` (R230). -/
def State.resetFor (p : Params) : State :=
  { cfg := p, cmd := 0#32, status := Status.idle, ops := Operands.reset p, res := Results.reset p, env := Env.empty }

/-- The state after reset with the reference parameters of R9 (log entry 1). -/
def State.reset : State := State.resetFor Params.reference

end Sys2Proof.Machine
end

