-- ==== Sys2Proof/Machine/Flags.lean ====
section
/-! DEFINITION. `STATUS`: its word (R26, R200), and how acceptance, rejection and completion change it (R203 to R207). -/

namespace Sys2Proof.Machine

open Sys2Proof.Config

/-- The value of `STATUS.ERRCODE` for an error (R200). -/
def ErrCode.bits : ErrCode → BitVec 4
  | .none => 0#4
  | .notInvertible => 1#4
  | .zeroNoInverse => 2#4
  | .divByZero => 3#4
  | .notInvertibleModM => 4#4
  | .invalidKeyLength => 5#4
  | .illegalCmd => 8#4
  | .invalidOperand => 9#4
  | .unsupportedSize => 10#4

/-- The word of `STATUS` (R26): bits [31:12] and [7:4] read 0. -/
def Status.word (st : Status) : CmdWord :=
  0#20 ++ st.errcode.bits ++ 0#4 ++ BitVec.ofBool st.rej ++ BitVec.ofBool st.err ++ BitVec.ofBool st.done ++ BitVec.ofBool st.busy

/-- The word of `CFG` (R24): bits [31:24] and [15:12] read 0. -/
def cfgWord (p : Params) : CmdWord :=
  0#8 ++ BitVec.ofNat 8 p.traceDepth ++ 0#4 ++ BitVec.ofNat 4 p.nmax ++ BitVec.ofNat 8 p.w

/-- `STATUS` after an acceptance (R203). -/
def Status.accepted : Status := { busy := true, done := false, err := false, rej := false, errcode := .none }

/-- `STATUS` after a dropped write (R46, R204). -/
def Status.rejected (st : Status) : Status := { st with rej := true }

/-- `STATUS` after a successful completion (R206): `REJ` keeps its value. -/
def Status.completed (st : Status) : Status := { busy := false, done := true, err := false, rej := st.rej, errcode := .none }

/-- `STATUS` after an error completion (R207): `REJ` keeps its value. -/
def Status.failed (code : ErrCode) (st : Status) : Status :=
  { busy := false, done := true, err := true, rej := st.rej, errcode := code }

end Sys2Proof.Machine
end

