-- ==== Sys2Proof/Machine/Ops.lean ====
section
/-! DEFINITION. The shared operations: completion and error completion, acceptance, rejection and reset; integer Euclid; GF(2^8)
arithmetic; determinant and adjugate; register widths. -/

namespace Sys2Proof.Machine

open Sys2Proof.Config

/-! ## Command lifecycle -/

/-- `complete()` (R206). -/
def complete (s : State) : State := { s with status := s.status.completed }

/-- `raise ERR(code)`, the error completion (R207): only `STATUS` changes. It is the hardware's whole error mechanism: there is no
trap entry and no trap return (R212). -/
def raiseErr (code : ErrCode) (s : State) : State := { s with status := s.status.failed code }

/-- How every command ends (R205): with its writes and `complete()`, or with an error completion on the state it began with (R202). -/
def conclude (s : State) (outcome : Except ErrCode State) : Host.Outcome State Fault Refusal :=
  match outcome with
  | .ok s' => .next (complete s')
  | .error code => .next (raiseErr code s)

/-- The completion of an illegal command word (R208). -/
def illegalCommand (s : State) : State := raiseErr .illegalCmd s

/-- Acceptance of a `CMD` write (R203). It also ends what an error left: the next accepted command clears it (R212). -/
def accept (data : PortWord) (s : State) : State :=
  { s with cmd := data.setWidth 32, status := Status.accepted }

/-- A host write dropped while a command is in progress (R46, R204). -/
def reject (s : State) : State := { s with status := s.status.rejected }

/-- The `RESET` step (R231, R232): the hardware takes the values of R230. What stands outside it, the host side, is not hardware. -/
def resetStep (s : State) : State := { State.resetFor s.cfg with env := s.env }

/-! ## Widths -/

/-- A value that a signed register of width `w` holds (R11). -/
abbrev fitsSigned (w : Nat) (v : Int) : Prop := -2 ^ (w - 1) ≤ v ∧ v < 2 ^ (w - 1)

/-- Write narrowing to a signed register of width `w` (R72). -/
def narrowSigned (w : Nat) (data : PortWord) : Int := (data.setWidth w).toInt

/-- Read widening of a signed register (R73). -/
def widenSigned (v : Int) : PortWord := BitVec.ofInt 64 v

/-! ## Integer Euclid -/

/-- `floordiv(p, q)`, rounded toward negative infinity (R12, R110). -/
def floordiv (p q : Int) : Int := Int.fdiv p q

/-- `floormod(p, q)` (R12). -/
def floormod (p q : Int) : Int := p - q * floordiv p q

/-- The working values of `EEA` at the top of an iteration (R48, R111). -/
structure EuclidState where
  rPrev : Int
  r : Int
  xPrev : Int
  x : Int
  yPrev : Int
  y : Int
  i : Nat
  deriving DecidableEq, Repr

/-- One row that `EEA` appends, the source's "EEA Step" (R111). -/
structure EuclidRow where
  index : Nat
  qv : Bool
  remainder : Int
  quotient : Int
  bezoutX : Int
  bezoutY : Int
  deriving DecidableEq, Repr

/-- What `EEA` returns (R111). -/
structure EuclidResult where
  gcd : Int
  bezoutX : Int
  bezoutY : Int
  rows : List EuclidRow
  deriving DecidableEq, Repr

/-- The values `EEA(a, b)` starts with (R111). -/
def euclidStart (a b : Int) : EuclidState :=
  { rPrev := a, r := b, xPrev := 1, x := 0, yPrev := 0, y := 1, i := 0 }

/-- The quotient of the iteration that begins at `e` (R110). -/
def euclidQuotient (e : EuclidState) : Int := floordiv e.rPrev e.r

/-- One iteration of `EEA` (R111). -/
def euclidStep (e : EuclidState) : EuclidState :=
  { rPrev := e.r, r := e.rPrev - euclidQuotient e * e.r
    xPrev := e.x, x := e.xPrev - euclidQuotient e * e.x
    yPrev := e.y, y := e.yPrev - euclidQuotient e * e.y
    i := e.i + 1 }

/-- The row the iteration that begins at `e` appends: its index before the update, and the values it computes (R111, R113). -/
def euclidRow (e : EuclidState) : EuclidRow :=
  { index := e.i, qv := decide (e.i ≠ 0), remainder := (euclidStep e).r, quotient := euclidQuotient e
    bezoutX := (euclidStep e).x, bezoutY := (euclidStep e).y }

/-- The loop of `EEA` (R111), for at most `fuel` iterations: the rows it appends, and the values it ends with. -/
def euclidLoop : Nat → EuclidState → List EuclidRow × EuclidState
  | 0, e => ([], e)
  | fuel + 1, e =>
      if e.r = 0 then ([], e)
      else
        let rest := euclidLoop fuel (euclidStep e)
        (euclidRow e :: rest.1, rest.2)

/-- `EEA(a, b)` (R111). Each iteration lowers `|r|`, which starts at `|b|`, so `|b|` iterations end the loop (log entry 8). -/
def euclid (a b : Int) : EuclidResult :=
  let run := euclidLoop b.natAbs (euclidStart a b)
  { gcd := run.2.rPrev, bezoutX := run.2.xPrev, bezoutY := run.2.yPrev, rows := run.1 }

/-- `modular_inverse(a, m)` (R116, R117), with the error that a failure of invertibility reports (`MODINV` and `MATINV` differ in it). -/
def inverseMod (failure : ErrCode) (a m : Int) : Except ErrCode Int :=
  let e := euclid a m
  if e.gcd ≠ 1 then .error failure else .ok (floormod e.bezoutX m)

/-! ## GF(2^8) -/

/-- Phase one of `GFMULTIPLY`: the carry-less product, up to 16 bits (R143). -/
def gfProduct (a b : Byte) : BitVec 16 :=
  (List.range 8).foldl (fun p i => if b.getLsbD i then p ^^^ (a.setWidth 16 <<< i) else p) 0#16

/-- Phase two of `GFMULTIPLY`: reduction modulo `POLY`, scanning from bit 15 down to bit 8 (R143). -/
def gfReduce (p : BitVec 16) : BitVec 16 :=
  [15, 14, 13, 12, 11, 10, 9, 8].foldl
    (fun p i => if p.getLsbD i then p ^^^ (BitVec.ofNat 16 poly <<< (i - 8)) else p) p

/-- `GFMULTIPLY(a, b)` (R143). -/
def gfMul (a b : Byte) : Byte := (gfReduce (gfProduct a b)).setWidth 8

/-- `bitlen(v)` (R12). -/
def bitlen (v : Nat) : Nat := if v = 0 then 0 else Nat.log2 v + 1

/-- `deg(v) = bitlen(v) - 1` (R12). -/
def deg (v : Nat) : Int := (bitlen v : Int) - 1

/-- The working pairs of `GFINVERSE` (R48, R145). -/
structure GfPairs where
  r0 : Nat
  r1 : Nat
  s0 : Nat
  s1 : Nat
  t0 : Nat
  t1 : Nat
  deriving DecidableEq, Repr

/-- The pairs `GFINVERSE(a)` starts with (R145). -/
def gfStart (a : Nat) : GfPairs := { r0 := poly, r1 := a, s0 := 0, s1 := 1, t0 := 1, t1 := 0 }

/-- Exchange the members of each pair. -/
def gfSwap (g : GfPairs) : GfPairs :=
  { r0 := g.r1, r1 := g.r0, s0 := g.s1, s1 := g.s0, t0 := g.t1, t1 := g.t0 }

/-- The XOR of one step of `GFINVERSE` (R145). -/
def gfXor (g : GfPairs) : GfPairs :=
  let j := (deg g.r0 - deg g.r1).toNat
  { g with r0 := g.r0 ^^^ (g.r1 <<< j), s0 := g.s0 ^^^ (g.s1 <<< j), t0 := g.t0 ^^^ (g.t1 <<< j) }

/-- One step of `GFINVERSE`: the XOR, then the swap when `deg(r0) < deg(r1)` (R145). -/
def gfStep (g : GfPairs) : GfPairs :=
  let g' := gfXor g
  if deg g'.r0 < deg g'.r1 then gfSwap g' else g'

/-- The loop of `GFINVERSE` (R145), for at most `fuel` steps. -/
def gfLoop : Nat → GfPairs → GfPairs
  | 0, g => g
  | fuel + 1, g => if deg g.r1 ≤ 0 then g else gfLoop fuel (gfStep g)

/-- `GFINVERSE(a)` (R145). A step lowers `deg(r0) + deg(r1)`, which starts at 15 or less, so 16 steps end the loop (log entry 8). -/
def gfInverse (a : Byte) : Byte := BitVec.ofNat 8 ((gfLoop 16 (gfStart a.toNat)).s1 &&& 0xFF)

/-! ## Determinant and adjugate -/

/-- `(-1)^k`. -/
def altSign (k : Nat) : Int := if k % 2 = 0 then 1 else -1

/-- `minor(S, i, j)`: `S` with row `i` and column `j` deleted (R12). -/
def minor (S : Nat → Nat → Int) (i j : Nat) : Nat → Nat → Int :=
  fun p q => S (if p < i then p else p + 1) (if q < j then q else q + 1)

/-- `det(S)` for `S` of dimension `n`: cofactor expansion along row 0 (R172). -/
def det : Nat → (Nat → Nat → Int) → Int
  | 0, _ => 1
  | n + 1, S => ((List.range (n + 1)).map fun j => altSign j * S 0 j * det n (minor S 0 j)).sum

/-- `adj(S)[i][j]` for `S` of dimension `n` (R175). -/
def adj (n : Nat) (S : Nat → Nat → Int) (i j : Nat) : Int := altSign (i + j) * det (n - 1) (minor S j i)

/-! ## Key loader -/

/-- Search upward from `r` for the largest number whose square is at most `v`. -/
def isqrtFrom (v : Nat) : Nat → Nat → Nat
  | 0, r => r
  | fuel + 1, r => if (r + 1) * (r + 1) ≤ v then isqrtFrom v fuel (r + 1) else r

/-- The integer square root (R185). -/
def isqrt (v : Nat) : Nat := isqrtFrom v v 0

/-- The letter index of an ASCII byte, none for a byte that is no letter (R179). -/
def letterIndex (c : Byte) : Option Nat :=
  if 0x41 ≤ c.toNat ∧ c.toNat < 0x41 + alpha then some (c.toNat - 0x41)
  else if 0x61 ≤ c.toNat ∧ c.toNat < 0x61 + alpha then some (c.toNat - 0x61)
  else none

end Sys2Proof.Machine
end

