-- ==== Sys2Proof/Machine/Operands.lean ====
section
/-! DEFINITION. How commands read operand registers, in each form the spec gives, with their checks; and how they write results. -/

namespace Sys2Proof.Machine

open Sys2Proof.Config

/-- Entry (i, j) of a matrix register array. -/
def gridEntry (g : Grid) (i j : Nat) : Int := (g.getD i []).getD j 0

/-- A matrix register array with entry (i, j) replaced. -/
def gridSet (g : Grid) (i j : Nat) (v : Int) : Grid := g.set i ((g.getD i []).set j v)

/-- A whole matrix register array: `f i j` in the leading n x n square and 0 outside it (R184, R185). -/
def gridOf (nmax n : Nat) (f : Nat → Nat → Int) : Grid :=
  (List.range nmax).map fun i => (List.range nmax).map fun j => if i < n ∧ j < n then f i j else 0

/-- A field element in a signed operand register: required in 0..255, not masked (R140). -/
def fieldElement (v : Int) : Except ErrCode Byte :=
  if v < 0 ∨ v > 255 then .error .invalidOperand else .ok (BitVec.ofInt 8 v)

/-- The two field elements of `GFADD`, `GFSUB`, `GFMUL`, `GFDIV`, with their check (R150). -/
def fieldOperands (s : State) : Except ErrCode (Byte × Byte) :=
  match fieldElement s.ops.a, fieldElement s.ops.b with
  | .ok a, .ok b => .ok (a, b)
  | .ok _, .error e => .error e
  | .error e, _ => .error e

/-- The matrix operand `S` (R170). -/
def matrixOperand (s : State) : Nat → Nat → Int := gridEntry s.ops.matIn

/-- Every entry of the leading n x n square is in [0, m) (R174, check 4). -/
def entriesInRange (n : Nat) (m : Int) (S : Nat → Nat → Int) : Bool :=
  (List.range n).all fun i => (List.range n).all fun j => decide (0 ≤ S i j) && decide (S i j < m)

/-- The operand checks of `DETMOD` and `MATINV`, in order (R174): the dimension `n` when all pass. -/
def matrixDimension (s : State) : Except ErrCode Nat :=
  if s.ops.n.toNat = 0 then .error .invalidOperand
  else if s.ops.n.toNat > s.cfg.nmax then .error .unsupportedSize
  else if s.ops.m < 1 then .error .invalidOperand
  else if entriesInRange s.ops.n.toNat s.ops.m (matrixOperand s) then .ok s.ops.n.toNat
  else .error .invalidOperand

/-- `determinant_mod(S, m)` (R173). -/
def detMod (n : Nat) (m : Int) (S : Nat → Nat → Int) : Int := floormod (det n S) m

/-- Character k of the key string (R36). -/
def keyCharacter (s : State) (k : Nat) : Byte := s.ops.keyChar.getD k 0#8

/-- Every character of a key of `len` characters is a letter (R179, R180 check 3). -/
def keyIsLetters (s : State) (len : Nat) : Bool := (List.range len).all fun k => (letterIndex (keyCharacter s k)).isSome

/-- Entry (i, j) of the n x n key matrix, row-major (R180). -/
def keyEntry (s : State) (n i j : Nat) : Int := ((letterIndex (keyCharacter s (i * n + j))).getD 0 : Nat)

/-- The checks of `MATKEY`, in order (R180, R182): the dimension `n` when all pass. -/
def keyDimension (s : State) : Except ErrCode Nat :=
  let len := s.ops.keyLen.toNat
  let n := isqrt len
  if len = 0 ∨ n * n ≠ len then .error .invalidKeyLength
  else if n > s.cfg.nmax ∨ s.cfg.w < 6 then .error .unsupportedSize
  else if keyIsLetters s len then .ok n
  else .error .invalidOperand

/-! ## Result writes -/

/-- Write `RES_V`. -/
def putV (v : Int) (s : State) : State := { s with res := { s.res with v := v } }

/-- What a GF(2^8) command writes to `RES_V`: its field element; where that does not fit the W bits of the register (possible only
for W <= 8), the spec states no value, and a free value in the range R40 gives takes its place (log entry 6). -/
def fieldResult (s : State) (i : Instr) (b : Int) (r : Byte) : Int :=
  if fitsSigned s.cfg.w r.toNat then r.toNat
  else ((freeFieldResult s.cfg.w (opcode i).toNat s.ops.a b % 2 ^ (s.cfg.w - 1) : Nat) : Int)

/-- Trace row k as the registers hold it (R42, R118): the run's row k, or zeros past its end. -/
def traceRow (rows : List EuclidRow) (k : Nat) : TraceRow :=
  match rows[k]? with
  | some row =>
      { idx := BitVec.ofNat 8 k, qv := row.qv, rem := row.remainder, q := row.quotient, x := row.bezoutX, y := row.bezoutY }
  | none => TraceRow.zero

/-- The result writes of `EXTGCD` (R118). -/
def putEuclid (e : EuclidResult) (s : State) : State :=
  { s with res := { s.res with
      g := e.gcd, x := e.bezoutX, y := e.bezoutY
      traceLen := BitVec.ofNat 8 e.rows.length
      trace := (List.range s.cfg.traceDepth).map (traceRow e.rows) } }

/-- The result writes of `MATINV` (R184). -/
def putInverse (n : Nat) (d : Int) (entry : Nat → Nat → Int) (s : State) : State :=
  { s with res := { s.res with v := d, matOut := gridOf s.cfg.nmax n entry } }

/-- The result writes of `MATKEY` (R185). -/
def putKey (n : Nat) (entry : Nat → Nat → Int) (s : State) : State :=
  { s with ops := { s.ops with n := BitVec.ofNat 8 n, matIn := gridOf s.cfg.nmax n entry } }

end Sys2Proof.Machine
end

