-- ==== Sys2Proof/Machine/Euclid.lean ====
section
/-! DEFINITION. The integer extended-Euclid unit: `EXTGCD` and `MODINV`. -/

namespace Sys2Proof.Machine

/-- `EXTGCD` (R118). It cannot fail. -/
def execExtgcd (s : State) : Host.Outcome State Fault Refusal :=
  conclude s (.ok (putEuclid (euclid s.ops.a s.ops.b) s))

/-- `MODINV` (R119). -/
def execModinv (s : State) : Host.Outcome State Fault Refusal :=
  conclude s <|
    if s.ops.m < 1 then .error .invalidOperand
    else
      match inverseMod .notInvertible s.ops.a s.ops.m with
      | .ok v => .ok (putV v s)
      | .error code => .error code

end Sys2Proof.Machine
end

