-- ==== Sys2Proof/Machine/Gf256.lean ====
section
/-! DEFINITION. The GF(2^8) units: `GFADD`, `GFSUB`, `GFMUL`, `GFINV`, `GFDIV`. -/

namespace Sys2Proof.Machine

/-- `GFADD` (R141, R150). -/
def execGfadd (s : State) : Host.Outcome State Fault Refusal :=
  conclude s <|
    match fieldOperands s with
    | .error code => .error code
    | .ok (a, b) => .ok (putV (fieldResult s .gfadd s.ops.b (a ^^^ b)) s)

/-- `GFSUB` (R142, R151). -/
def execGfsub (s : State) : Host.Outcome State Fault Refusal :=
  conclude s <|
    match fieldOperands s with
    | .error code => .error code
    | .ok (a, b) => .ok (putV (fieldResult s .gfsub s.ops.b (a ^^^ b)) s)

/-- `GFMUL` (R152). -/
def execGfmul (s : State) : Host.Outcome State Fault Refusal :=
  conclude s <|
    match fieldOperands s with
    | .error code => .error code
    | .ok (a, b) => .ok (putV (fieldResult s .gfmul s.ops.b (gfMul a b)) s)

/-- `GFINV` (R146, R153). `B` is not read. -/
def execGfinv (s : State) : Host.Outcome State Fault Refusal :=
  conclude s <|
    match fieldElement s.ops.a with
    | .error code => .error code
    | .ok a =>
        if a = 0#8 then .error .zeroNoInverse
        else .ok (putV (fieldResult s .gfinv 0 (gfInverse a)) s)

/-- `GFDIV` (R148, R154). -/
def execGfdiv (s : State) : Host.Outcome State Fault Refusal :=
  conclude s <|
    match fieldOperands s with
    | .error code => .error code
    | .ok (a, b) =>
        if b = 0#8 then .error .divByZero
        else .ok (putV (fieldResult s .gfdiv s.ops.b (gfMul a (gfInverse b))) s)

end Sys2Proof.Machine
end

