-- ==== Sys2Proof/Machine/ModularMatrix.lean ====
section
/-! DEFINITION. The modular matrix unit: `DETMOD`, `MATINV`, `MATKEY`. -/

namespace Sys2Proof.Machine

/-- `DETMOD` (R183). -/
def execDetmod (s : State) : Host.Outcome State Fault Refusal :=
  conclude s <|
    match matrixDimension s with
    | .error code => .error code
    | .ok n => .ok (putV (detMod n s.ops.m (matrixOperand s)) s)

/-- `MATINV` (R176, R177, R184). -/
def execMatinv (s : State) : Host.Outcome State Fault Refusal :=
  conclude s <|
    match matrixDimension s with
    | .error code => .error code
    | .ok n =>
        let d := detMod n s.ops.m (matrixOperand s)
        match inverseMod .notInvertibleModM d s.ops.m with
        | .error code => .error code
        | .ok dinv => .ok (putInverse n d (fun i j => floormod (dinv * adj n (matrixOperand s) i j) s.ops.m) s)

/-- `MATKEY` (R180, R185). -/
def execMatkey (s : State) : Host.Outcome State Fault Refusal :=
  conclude s <|
    match keyDimension s with
    | .error code => .error code
    | .ok n => .ok (putKey n (keyEntry s n) s)

end Sys2Proof.Machine
end

