-- ==== Sys2Proof/Machine/Dispatch.lean ====
section
/-! DEFINITION. One arm per command. -/

namespace Sys2Proof.Machine

open Sys2Proof

def exec (i : Instr) (s : State) : Host.Outcome State Fault Refusal :=
  match i with
  | .extgcd => Sys2Proof.Machine.execExtgcd s
  | .modinv => Sys2Proof.Machine.execModinv s
  | .gfadd => Sys2Proof.Machine.execGfadd s
  | .gfsub => Sys2Proof.Machine.execGfsub s
  | .gfmul => Sys2Proof.Machine.execGfmul s
  | .gfinv => Sys2Proof.Machine.execGfinv s
  | .gfdiv => Sys2Proof.Machine.execGfdiv s
  | .detmod => Sys2Proof.Machine.execDetmod s
  | .matinv => Sys2Proof.Machine.execMatinv s
  | .matkey => Sys2Proof.Machine.execMatkey s

end Sys2Proof.Machine
end

