-- ==== Sys2Proof/Machine/Port.lean ====
section
/-! DEFINITION. The host port: the register map (R23), and what `WR`, `RD` and `WAIT` do (R44 to R47, R71 to R73, R101). -/

namespace Sys2Proof.Machine

open Sys2Proof.Config

/-! ## The register map -/

/-- The place of a field in its trace row's indices (R23). -/
def traceOffset : TraceField → Nat
  | .idx => 0
  | .qv => 1
  | .rem => 2
  | .q => 3
  | .x => 4
  | .y => 5

/-- The index of a register (R23). -/
def regIndex : Reg → Index
  | .cfg => 0x000#12
  | .cmd => 0x001#12
  | .status => 0x002#12
  | .a => 0x010#12
  | .b => 0x011#12
  | .m => 0x012#12
  | .n => 0x013#12
  | .keyLen => 0x014#12
  | .resG => 0x040#12
  | .resX => 0x041#12
  | .resY => 0x042#12
  | .resV => 0x043#12
  | .traceLen => 0x044#12
  | .keyChar k => BitVec.ofNat 12 (0x100 + k)
  | .matIn i j => BitVec.ofNat 12 (0x200 + 16 * i + j)
  | .matOut i j => BitVec.ofNat 12 (0x300 + 16 * i + j)
  | .trace k f => BitVec.ofNat 12 (0x400 + 8 * k + traceOffset f)

/-- The register below 0x100 at an index (R23). -/
def scalarAt (ix : Nat) : Option Reg :=
  if ix = 0x000 then some .cfg
  else if ix = 0x001 then some .cmd
  else if ix = 0x002 then some .status
  else if ix = 0x010 then some .a
  else if ix = 0x011 then some .b
  else if ix = 0x012 then some .m
  else if ix = 0x013 then some .n
  else if ix = 0x014 then some .keyLen
  else if ix = 0x040 then some .resG
  else if ix = 0x041 then some .resX
  else if ix = 0x042 then some .resY
  else if ix = 0x043 then some .resV
  else if ix = 0x044 then some .traceLen
  else none

/-- The trace field at an offset in a row's indices; offsets 6 and 7 are unmapped (R23). -/
def traceFieldAt (off : Nat) : Option TraceField :=
  if off = 0 then some .idx
  else if off = 1 then some .qv
  else if off = 2 then some .rem
  else if off = 3 then some .q
  else if off = 4 then some .x
  else if off = 5 then some .y
  else none

/-- The register an index names, none where it is unmapped (R23, R44). -/
def regAt (p : Params) (index : Index) : Option Reg :=
  let ix := index.toNat
  if ix < 0x100 then scalarAt ix
  else if ix < 0x200 then
    if ix - 0x100 < p.nmax * p.nmax then some (.keyChar (ix - 0x100)) else none
  else if ix < 0x300 then
    if (ix - 0x200) / 16 < p.nmax ∧ (ix - 0x200) % 16 < p.nmax then some (.matIn ((ix - 0x200) / 16) ((ix - 0x200) % 16)) else none
  else if ix < 0x400 then
    if (ix - 0x300) / 16 < p.nmax ∧ (ix - 0x300) % 16 < p.nmax then some (.matOut ((ix - 0x300) / 16) ((ix - 0x300) % 16)) else none
  else if (ix - 0x400) / 8 < p.traceDepth then
    match traceFieldAt ((ix - 0x400) % 8) with
    | some f => some (.trace ((ix - 0x400) / 8) f)
    | none => none
  else none

/-- The host's rights on a register (R23). -/
def regAccess : Reg → Access
  | .cmd => .rc
  | .a | .b | .m | .n | .keyLen | .keyChar _ | .matIn _ _ => .rw
  | .cfg | .status | .resG | .resX | .resY | .resV | .traceLen | .matOut _ _ | .trace _ _ => .ro

/-! ## Reading -/

/-- The word of one register of a trace row, widened (R42, R73). -/
def readTrace (row : TraceRow) : TraceField → PortWord
  | .idx => row.idx.setWidth 64
  | .qv => (BitVec.ofBool row.qv).setWidth 64
  | .rem => widenSigned row.rem
  | .q => widenSigned row.q
  | .x => widenSigned row.x
  | .y => widenSigned row.y

/-- The word a register holds, widened to the port's width (R73). -/
def readReg (s : State) : Reg → PortWord
  | .cfg => (cfgWord s.cfg).setWidth 64
  | .cmd => s.cmd.setWidth 64
  | .status => s.status.word.setWidth 64
  | .a => widenSigned s.ops.a
  | .b => widenSigned s.ops.b
  | .m => widenSigned s.ops.m
  | .n => s.ops.n.setWidth 64
  | .keyLen => s.ops.keyLen.setWidth 64
  | .resG => widenSigned s.res.g
  | .resX => widenSigned s.res.x
  | .resY => widenSigned s.res.y
  | .resV => widenSigned s.res.v
  | .traceLen => s.res.traceLen.setWidth 64
  | .keyChar k => (s.ops.keyChar.getD k 0#8).setWidth 64
  | .matIn i j => widenSigned (gridEntry s.ops.matIn i j)
  | .matOut i j => widenSigned (gridEntry s.res.matOut i j)
  | .trace k f => readTrace (s.res.trace.getD k TraceRow.zero) f

/-- The registers a read returns the value of even while a command is in progress (R47). -/
def readableWhileBusy : Reg → Bool
  | .cfg | .cmd | .status => true
  | .a | .b | .m | .n | .keyLen | .resG | .resX | .resY | .resV | .traceLen => false
  | .keyChar _ | .matIn _ _ | .matOut _ _ | .trace _ _ => false

/-- The host receives a word. -/
def logRead (index : Index) (word : PortWord) (s : State) : State :=
  { s with env := { s.env with reads := { index := index, word := word } :: s.env.reads } }

/-- The host receives a free value (R47), a fresh one each time. -/
def drawRead (index : Index) (s : State) : State :=
  { s with env := { s.env with
      reads := { index := index, word := freeRead s.env.draws } :: s.env.reads
      draws := s.env.draws + 1 } }

/-- `RD(index)` (R44, R47, R71, R73). An unmapped index reads 0, also while busy: R47 speaks of mapped registers (log entry 13). -/
def hostRead (index : Index) (s : State) : State :=
  match regAt s.cfg index with
  | none => logRead index 0#64 s
  | some r => if s.status.busy && !readableWhileBusy r then drawRead index s else logRead index (readReg s r) s

/-! ## Writing -/

/-- Store a data word, narrowed to the register's width, in an operand register (R46, R72). -/
def writeOperand (w : Nat) (o : Operands) (r : Reg) (data : PortWord) : Operands :=
  match r with
  | .a => { o with a := narrowSigned w data }
  | .b => { o with b := narrowSigned w data }
  | .m => { o with m := narrowSigned w data }
  | .n => { o with n := data.setWidth 8 }
  | .keyLen => { o with keyLen := data.setWidth 8 }
  | .keyChar k => { o with keyChar := o.keyChar.set k (data.setWidth 8) }
  | .matIn i j => { o with matIn := gridSet o.matIn i j (narrowSigned w data) }
  | .cfg | .cmd | .status | .resG | .resX | .resY | .resV | .traceLen => o
  | .matOut _ _ | .trace _ _ => o

/-- Store to an operand register while no command is in progress (R46). -/
def storeOperand (r : Reg) (data : PortWord) (s : State) : State := { s with ops := writeOperand s.cfg.w s.ops r data }

/-- `WR(index, data)` (R44, R45, R46, R71, R203, R204). -/
def hostWrite (index : Index) (data : PortWord) (s : State) : State :=
  match regAt s.cfg index with
  | none => s
  | some r =>
      match regAccess r with
      | .ro => s
      | .rc => if s.status.busy then reject s else accept data s
      | .rw => if s.status.busy then reject s else storeOperand r data s

/-! ## The host's step -/

/-- The host goes past the first operation of its program. -/
def popOp (s : State) : State := { s with env := { s.env with program := s.env.program.tail } }

/-- One step of the host (R71, R101). `WAIT` reads `STATUS` and stays in place while bit 0 of the word read is 1. -/
def hostStep (op : HostOp) (s : State) : State :=
  match op with
  | .wr index data => hostWrite index data (popOp s)
  | .rd index => hostRead index (popOp s)
  | .wait =>
      if (readReg s .status).getLsbD 0 then hostRead (regIndex .status) s
      else hostRead (regIndex .status) (popOp s)

end Sys2Proof.Machine
end

