-- ==== Sys2Proof/Machine/HostProgram.lean ====
section
/-! DEFINITION. The expansions of the host's pseudo-instructions (R98, R99, R101) and the listing of transactions (R97). -/

namespace Sys2Proof.Machine

/-- `WR <reg>, <value>` (R96). A negative value denotes its 64-bit two's-complement word. -/
def wrReg (r : Reg) (v : Int) : HostOp := .wr (regIndex r) (BitVec.ofInt 64 v)

/-- `RD <reg>` (R96). -/
def rdReg (r : Reg) : HostOp := .rd (regIndex r)

/-- The pairs (i, j) with i, j < n, row-major (R99). -/
def rowMajor (n : Nat) : List (Nat × Nat) := (List.range n).flatMap fun i => (List.range n).map fun j => (i, j)

/-- The fields of a trace row in the order of `RDTRACE` (R99). -/
def traceFields : List TraceField := [.idx, .qv, .rem, .q, .x, .y]

/-- The transactions a line of a host program stands for (R96, R98, R99, R101). -/
def expand : Pseudo → List HostOp
  | .wr r v => [wrReg r v]
  | .rd r => [rdReg r]
  | .wrIndex index v => [.wr index (BitVec.ofInt 64 v)]
  | .rdIndex index => [.rd index]
  | .cmd i => [.wr (regIndex .cmd) ((encode i).setWidth 64)]
  | .wait => [.wait]
  | .run i => [.wr (regIndex .cmd) ((encode i).setWidth 64), .wait]
  | .ldkey s => wrReg .keyLen s.length :: (List.range s.length).map fun k => wrReg (.keyChar k) (s.getD k 0#8).toNat
  | .ldmat n rows => wrReg .n n :: (rowMajor n).map fun ij => wrReg (.matIn ij.1 ij.2) (gridEntry rows ij.1 ij.2)
  | .rdmat n => (rowMajor n).map fun ij => rdReg (.matOut ij.1 ij.2)
  | .rdtrace t => (List.range t).flatMap fun k => traceFields.map fun f => rdReg (.trace k f)

/-- A host program, its lines expanded in order (R96). -/
def expandAll (prog : List Pseudo) : List HostOp := prog.flatMap expand

/-- The hexadecimal digits in the order of their values, capital (log entry 14). -/
def hexAlphabet : List Char :=
  ((List.range 10).map fun k => Char.ofNat (0x30 + k)) ++ (List.range 6).map fun k => Char.ofNat (0x41 + k)

/-- The hexadecimal digit of `v mod 16`. -/
def hexDigit (v : Nat) : Char := hexAlphabet.getD (v % 16) (Char.ofNat 0x30)

/-- The low `digits` hexadecimal digits of `v`, most significant first. -/
def hexDigits : Nat → Nat → List Char
  | 0, _ => []
  | digits + 1, v => hexDigits digits (v / 16) ++ [hexDigit v]

/-- The listing of a host step (R97): `W iii dddddddddddddddd` or `R iii`. `WAIT` lists as its read of `STATUS` (R101). -/
def listing : HostOp → List Char
  | .wr index data => ['W', ' '] ++ hexDigits 3 index.toNat ++ [' '] ++ hexDigits 16 data.toNat
  | .rd index => ['R', ' '] ++ hexDigits 3 index.toNat
  | .wait => ['R', ' '] ++ hexDigits 3 (regIndex .status).toNat

end Sys2Proof.Machine
end

