-- ==== Sys2Proof/Machine/HostText.lean ====
section
/-! DEFINITION. The text of a host program (R96, R98, R99, R101), read into program lines. -/

namespace Sys2Proof.Machine

/-- What a line of text is made of. -/
inductive Token where
  /-- a name, a number, a mnemonic, or the arrow of `RD <reg> -> <name>` -/
  | word (cs : List Char)
  /-- a quoted character -/
  | chr (cs : List Char)
  /-- a quoted string -/
  | str (cs : List Char)
  | comma
  | lbrack
  | rbrack
  deriving DecidableEq, Repr

/-- The quote around a character of `KEY_CHAR` (R96). -/
def apostrophe : Char := Char.ofNat 0x27

/-- The quote around the string of `LDKEY` (R99). -/
def quotationMark : Char := Char.ofNat 0x22

/-- Where the reading of a line stands. -/
inductive ReadMode where
  | plain
  | inChr
  | inStr
  | comment
  deriving DecidableEq, Repr

/-- The tokens read so far, newest first, and the characters of the one being read, newest first. -/
structure Reader where
  mode : ReadMode
  cur : List Char
  toks : List Token
  deriving DecidableEq, Repr

/-- End the word being read, if there is one. -/
def Reader.flush (r : Reader) : Reader :=
  match r.cur with
  | [] => r
  | _ :: _ => { r with cur := [], toks := .word r.cur.reverse :: r.toks }

/-- End the word being read and take a token. -/
def Reader.push (r : Reader) (t : Token) : Reader := { r.flush with toks := t :: r.flush.toks }

/-- Read one character; `;` starts a comment (R96). A quote ends at the next mark of its kind: R96 and R99 give no way to write that mark
inside it, and the model has none (DESIGN CHOICE, log entry 15). -/
def Reader.next (r : Reader) (c : Char) : Reader :=
  match r.mode with
  | .comment => r
  | .inChr => if c = apostrophe then { mode := .plain, cur := [], toks := .chr r.cur.reverse :: r.toks } else { r with cur := c :: r.cur }
  | .inStr => if c = quotationMark then { mode := .plain, cur := [], toks := .str r.cur.reverse :: r.toks } else { r with cur := c :: r.cur }
  | .plain =>
      if c = ' ' ∨ c = '\t' then r.flush
      else if c = ',' then r.push .comma
      else if c = '[' then r.push .lbrack
      else if c = ']' then r.push .rbrack
      else if c = ';' then { r.flush with mode := .comment }
      else if c = apostrophe then { r.flush with mode := .inChr }
      else if c = quotationMark then { r.flush with mode := .inStr }
      else { r with cur := c :: r.cur }

/-- The tokens of a line, none where a quote is not closed. -/
def tokens (line : List Char) : Option (List Token) :=
  let r := line.foldl Reader.next { mode := .plain, cur := [], toks := [] }
  match r.mode with
  | .plain | .comment => some r.flush.toks.reverse
  | .inChr | .inStr => none

/-- The value of a digit of a `0x` or decimal number: its place among the digits that listings use (R97), a small letter standing for
its capital (log entry 14). -/
def digitValue (c : Char) : Option Nat := hexAlphabet.findIdx? (· = c.toUpper)

/-- The number that a word's digits spell in a base (R96). -/
def numeral (base : Nat) (cs : List Char) : Option Nat :=
  match cs.mapM digitValue with
  | some ds => if ds.all (· < base) then some (Nat.ofDigits base ds.reverse) else none
  | none => none

/-- An unsigned decimal or `0x` number (R96). -/
def natValue : List Char → Option Nat
  | [] => none
  | '0' :: 'x' :: [] => none
  | '0' :: 'x' :: cs => numeral 16 cs
  | cs => numeral 10 cs

/-- A decimal, negative decimal or `0x` number (R96). -/
def intValue : List Char → Option Int
  | '-' :: [] => none
  | '-' :: cs => (numeral 10 cs).map fun v => -(v : Int)
  | cs => (natValue cs).map fun v => (v : Int)

/-- The registers with a name of their own (R23). -/
def scalarNames : List (List Char × Reg) :=
  [("CFG".toList, .cfg), ("CMD".toList, .cmd), ("STATUS".toList, .status), ("A".toList, .a), ("B".toList, .b), ("M".toList, .m),
    ("N".toList, .n), ("KEY_LEN".toList, .keyLen), ("RES_G".toList, .resG), ("RES_X".toList, .resX), ("RES_Y".toList, .resY),
    ("RES_V".toList, .resV), ("TRACE_LEN".toList, .traceLen)]

/-- The names of the trace registers (R23). -/
def traceNames : List (List Char × TraceField) :=
  [("TR_IDX".toList, .idx), ("TR_QV".toList, .qv), ("TR_REM".toList, .rem), ("TR_Q".toList, .q), ("TR_X".toList, .x), ("TR_Y".toList, .y)]

/-- The mnemonics of the commands (R91). -/
def commandNames : List (List Char × Instr) :=
  [("EXTGCD".toList, .extgcd), ("MODINV".toList, .modinv), ("GFADD".toList, .gfadd), ("GFSUB".toList, .gfsub), ("GFMUL".toList, .gfmul),
    ("GFINV".toList, .gfinv), ("GFDIV".toList, .gfdiv), ("DETMOD".toList, .detmod), ("MATINV".toList, .matinv), ("MATKEY".toList, .matkey)]

/-- A register array of one index (R23). -/
def arrayReg (name : List Char) (k : Nat) : Option Reg :=
  if name = "KEY_CHAR".toList then some (.keyChar k) else (traceNames.lookup name).map fun f => .trace k f

/-- A register array of two indices (R23). -/
def matrixReg (name : List Char) (i j : Nat) : Option Reg :=
  if name = "MAT_IN".toList then some (.matIn i j)
  else if name = "MAT_OUT".toList then some (.matOut i j)
  else none

/-- What a transaction names: a register, or a numeric index (R96). -/
inductive Target where
  | reg (r : Reg)
  | index (ix : Index)
  deriving DecidableEq, Repr

/-- A target written as one word. -/
def wordTarget (name : List Char) : Option Target :=
  match scalarNames.lookup name with
  | some r => some (.reg r)
  | none =>
      match natValue name with
      | some v => if v < 2 ^ 12 then some (.index (BitVec.ofNat 12 v)) else none
      | none => none

/-- The target a line's tokens begin with, and the tokens after it. -/
def readTarget : List Token → Option (Target × List Token)
  | .word name :: .lbrack :: .word i :: .rbrack :: .lbrack :: .word j :: .rbrack :: rest =>
      match natValue i, natValue j with
      | some i, some j => (matrixReg name i j).map fun r => (.reg r, rest)
      | _, _ => none
  | .word name :: .lbrack :: .word k :: .rbrack :: rest =>
      match natValue k with
      | some k => (arrayReg name k).map fun r => (.reg r, rest)
      | none => none
  | .word name :: rest => (wordTarget name).map fun t => (t, rest)
  | _ => none

/-- An ASCII character's byte. -/
def charByte (c : Char) : Option Byte := if c.toNat < 128 then some (BitVec.ofNat 8 c.toNat) else none

/-- A number, or for a register `KEY_CHAR[k]` a quoted character (R96). The register must be named so: for a numeric index, also one
that names a key character, a quoted character is no value (DESIGN CHOICE, log entry 16). -/
def readValue (t : Target) : Token → Option Int
  | .word cs => intValue cs
  | .chr [c] =>
      match t with
      | .reg (.keyChar _) => (charByte c).map fun b => (b.toNat : Int)
      | _ => none
  | _ => none

/-- The entries of a row, after its opening bracket, and the tokens after the row. -/
def readRow : List Token → Option (List Int × List Token)
  | .word v :: .comma :: rest =>
      match intValue v, readRow rest with
      | some x, some (xs, rest') => some (x :: xs, rest')
      | _, _ => none
  | .word v :: .rbrack :: rest => (intValue v).map fun x => ([x], rest)
  | _ => none

/-- The rows of a matrix, after its opening bracket; nothing may follow its closing one. At most `fuel` rows. -/
def readRows : (fuel : Nat) → List Token → Option Grid
  | fuel + 1, .lbrack :: rest =>
      match readRow rest with
      | some (row, .comma :: rest') => (readRows fuel rest').map fun rows => row :: rows
      | some (row, [.rbrack]) => some [row]
      | _ => none
  | _, _ => none

/-- The matrix of `LDMAT` (R99). -/
def readMatrix : List Token → Option Grid
  | [.lbrack, .rbrack] => some []
  | .lbrack :: rest => readRows rest.length rest
  | _ => none

/-- `WR` to a target. -/
def wrLine : Target → Int → Pseudo
  | .reg r, v => .wr r v
  | .index ix, v => .wrIndex ix v

/-- `RD` of a target. -/
def rdLine : Target → Pseudo
  | .reg r => .rd r
  | .index ix => .rdIndex ix

/-- What follows the word a line begins with (R96, R98, R99, R101). A name given to a value read has no meaning here: every word read
is in `reads`. A label or `BNZ` is no line, since R96 has them only inside `WAIT`. -/
def readLine (op : List Char) (args : List Token) : Option Pseudo :=
  if op = "WR".toList then
    match readTarget args with
    | some (t, [.comma, v]) => (readValue t v).map (wrLine t)
    | _ => none
  else if op = "RD".toList then
    match readTarget args with
    | some (t, []) => some (rdLine t)
    | some (t, [.word arrow, .word _]) => if arrow = "->".toList then some (rdLine t) else none
    | _ => none
  else if op = "CMD".toList then
    match args with
    | [.word name] => (commandNames.lookup name).map .cmd
    | _ => none
  else if op = "RUN".toList then
    match args with
    | [.word name] => (commandNames.lookup name).map .run
    | _ => none
  else if op = "WAIT".toList then
    match args with
    | [] => some .wait
    | _ => none
  else if op = "LDKEY".toList then
    match args with
    | [.str cs] => (cs.mapM charByte).map .ldkey
    | _ => none
  else if op = "LDMAT".toList then
    match args with
    | .word n :: .comma :: rest =>
        match natValue n, readMatrix rest with
        | some n, some rows => some (.ldmat n rows)
        | _, _ => none
    | _ => none
  else if op = "RDMAT".toList then
    match args with
    | [.word n] => (natValue n).map .rdmat
    | _ => none
  else if op = "RDTRACE".toList then
    match args with
    | [.word t] => (natValue t).map .rdtrace
    | _ => none
  else none

/-- A line of text: no program line where it is blank or a comment; none where it is no line of R96. -/
def parseLine (line : List Char) : Option (List Pseudo) :=
  match tokens line with
  | some [] => some []
  | some (.word op :: args) => (readLine op args).map fun p => [p]
  | _ => none

/-- The lines of a text. -/
def textLines (text : List Char) : List (List Char) :=
  text.foldr (fun c lines =>
    if c = '\n' then [] :: lines
    else
      match lines with
      | [] => [[c]]
      | line :: rest => (c :: line) :: rest) [[]]

/-- A host program as text, one line per transaction or pseudo-instruction (R96). -/
def parseProgram (text : List Char) : Option (List Pseudo) := ((textLines text).mapM parseLine).map fun ls => ls.flatten

end Sys2Proof.Machine
end

