-- ==== Sys2Proof/Machine/Schedule.lean ====
section
/-! DEFINITION. Which agent takes the next step (R20, R78, R205, R232, R241). -/

namespace Sys2Proof.Machine

/-- What the next step of an execution is. -/
inductive Move where
  /-- the engine's completion step (R205) -/
  | completion
  /-- a step of the host (R71) -/
  | transaction (op : HostOp)
  /-- the `RESET` step (R232) -/
  | reset
  /-- no agent whose turn it is can step -/
  | nothing
  deriving DecidableEq, Repr

/-- The engine's step is enabled exactly while a command is in progress (R205). -/
def engineMove (s : State) : Move := if s.status.busy then .completion else .nothing

/-- The host steps while its program has an operation. -/
def hostMove (s : State) : Move :=
  match s.env.program with
  | op :: _ => .transaction op
  | [] => .nothing

/-- The next move: by the schedule, and past its end by weak fairness, the engine first while it is enabled (R78, R241; log entry 3). -/
def nextMove (s : State) : Move :=
  match s.env.turns with
  | .engine :: _ => engineMove s
  | .host :: _ => hostMove s
  | .reset :: _ => .reset
  | [] => if s.status.busy then engineMove s else hostMove s

/-- The schedule goes past the turn being taken. -/
def popTurn (s : State) : State := { s with env := { s.env with turns := s.env.turns.tail } }

end Sys2Proof.Machine
end

