-- ==== Sys2Proof/Machine/Step.lean ====
section
/-! DEFINITION. The step of the machine. -/

namespace Sys2Proof.Machine

open Sys2Proof

/-- The engine's completion step (R205): decode `CMD` (R208), then perform the command. -/
def completionStep (s : State) : Host.Outcome State Fault Refusal :=
  match decode s.cmd with
  | .ok i => exec i s
  | .error _ => .next (illegalCommand s)

/-- One step of one agent (R78). -/
def step (s : State) : Host.Outcome State Fault Refusal :=
  match nextMove s with
  | .completion => completionStep (popTurn s)
  | .transaction op => .next (hostStep op (popTurn s))
  | .reset => .next (resetStep (popTurn s))
  | .nothing => .next (popTurn s)

/-- The state in which the command word `w` has just been accepted (R203) and the next step is its completion.
The engine fetches no instruction (R21): a program reaches it as `CMD` writes of the host (log entry 9). -/
def State.withFetchWord (s : State) (nbits w : Nat) : State :=
  let s' := accept (BitVec.ofNat 64 (w % 2 ^ nbits)) s
  { s' with env := { s'.env with turns := .engine :: s'.env.turns } }

end Sys2Proof.Machine
end

