-- ==== Sys2Proof/Safety.lean ====
section
/-! DEFINITION. What holds of every state a run reaches: legal parameters, registers within their widths, `STATUS` and the trace as
their fields' rules say. -/

namespace Sys2Proof.Machine

open Sys2Proof.Config

/-- `STATUS` as R27 to R30 say: while busy, neither done nor error; no error before a completion; a code exactly with an error; a
rejection only since an acceptance. -/
abbrev Status.wf (st : Status) : Prop :=
  (st.busy = true → st.done = false) ∧ (st.done = false → st.err = false) ∧ (st.err = true ↔ st.errcode ≠ .none)
    ∧ (st.rej = true → st.busy = true ∨ st.done = true)

/-- A matrix register array has NMAX rows of NMAX entries, each within `w` bits signed. -/
abbrev gridWf (nmax w : Nat) (g : Grid) : Prop :=
  g.length = nmax ∧ ∀ row ∈ g, row.length = nmax ∧ ∀ v ∈ row, fitsSigned w v

/-- The registers of a trace row hold values of their widths (R42). -/
abbrev TraceRow.wf (p : Params) (row : TraceRow) : Prop :=
  fitsSigned p.w row.rem ∧ fitsSigned p.xw row.q ∧ fitsSigned p.xw row.x ∧ fitsSigned p.xw row.y

/-- Trace row k is as R42 says: its index and quotient flag below `TRACE_LEN`, zeros from there on. -/
abbrev TraceRow.placed (len k : Nat) (row : TraceRow) : Prop :=
  (k < len → row.idx = BitVec.ofNat 8 k ∧ row.qv = decide (k ≠ 0)) ∧ (len ≤ k → row = TraceRow.zero)

/-- The operand registers hold values of their widths (R23). -/
structure Operands.wf (p : Params) (o : Operands) : Prop where
  a : fitsSigned p.w o.a
  b : fitsSigned p.w o.b
  m : fitsSigned p.w o.m
  keyChar : o.keyChar.length = p.nmax * p.nmax
  matIn : gridWf p.nmax p.w o.matIn

/-- The result registers hold values of their widths (R23), `TRACE_LEN` and the trace are as R41 and R42 say, and `RES_V` and
`MAT_OUT` hold no negative value (R40, R43). -/
structure Results.wf (p : Params) (r : Results) : Prop where
  g : fitsSigned p.w r.g
  x : fitsSigned p.xw r.x
  y : fitsSigned p.xw r.y
  v : fitsSigned p.w r.v
  vNonneg : 0 ≤ r.v
  traceLen : r.traceLen.toNat ≤ 2 * p.w - 2
  depth : r.trace.length = p.traceDepth
  rows : ∀ row ∈ r.trace, TraceRow.wf p row
  placed : ∀ k < p.traceDepth, TraceRow.placed r.traceLen.toNat k (r.trace.getD k TraceRow.zero)
  matOut : gridWf p.nmax p.w r.matOut
  matOutNonneg : ∀ row ∈ r.matOut, ∀ v ∈ row, 0 ≤ v

/-- The invariant of every run: the parameters are legal (R9), every register is within its width (R11, R23), and `STATUS` and the
trace are as their fields' rules say. The host side is unconstrained. -/
structure State.wf (s : State) : Prop where
  cfg : s.cfg.legal
  status : s.status.wf
  ops : s.ops.wf s.cfg
  res : s.res.wf s.cfg

end Sys2Proof.Machine
end

