-- ==== Sys2Proof/Laws/State.lean ====
section
/-! SUPPORT. What each update of the state does to each of its fields, and which fields of `STATUS` each change of it sets. -/

namespace Sys2Proof.Machine

open Sys2Proof.Config

/-! ## `complete` -/

@[simp] theorem complete_cfg (s : State) : (complete s).cfg = s.cfg := rfl
@[simp] theorem complete_cmd (s : State) : (complete s).cmd = s.cmd := rfl
@[simp] theorem complete_status (s : State) : (complete s).status = s.status.completed := rfl
@[simp] theorem complete_ops (s : State) : (complete s).ops = s.ops := rfl
@[simp] theorem complete_res (s : State) : (complete s).res = s.res := rfl
@[simp] theorem complete_env (s : State) : (complete s).env = s.env := rfl

/-! ## `raiseErr` -/

@[simp] theorem raiseErr_cfg (c : ErrCode) (s : State) : (raiseErr c s).cfg = s.cfg := rfl
@[simp] theorem raiseErr_cmd (c : ErrCode) (s : State) : (raiseErr c s).cmd = s.cmd := rfl
@[simp] theorem raiseErr_status (c : ErrCode) (s : State) : (raiseErr c s).status = s.status.failed c := rfl
@[simp] theorem raiseErr_ops (c : ErrCode) (s : State) : (raiseErr c s).ops = s.ops := rfl
@[simp] theorem raiseErr_res (c : ErrCode) (s : State) : (raiseErr c s).res = s.res := rfl
@[simp] theorem raiseErr_env (c : ErrCode) (s : State) : (raiseErr c s).env = s.env := rfl

/-! ## `accept` -/

@[simp] theorem accept_cfg (d : PortWord) (s : State) : (accept d s).cfg = s.cfg := rfl
@[simp] theorem accept_cmd (d : PortWord) (s : State) : (accept d s).cmd = d.setWidth 32 := rfl
@[simp] theorem accept_status (d : PortWord) (s : State) : (accept d s).status = Status.accepted := rfl
@[simp] theorem accept_ops (d : PortWord) (s : State) : (accept d s).ops = s.ops := rfl
@[simp] theorem accept_res (d : PortWord) (s : State) : (accept d s).res = s.res := rfl
@[simp] theorem accept_env (d : PortWord) (s : State) : (accept d s).env = s.env := rfl

/-! ## `reject` -/

@[simp] theorem reject_cfg (s : State) : (reject s).cfg = s.cfg := rfl
@[simp] theorem reject_cmd (s : State) : (reject s).cmd = s.cmd := rfl
@[simp] theorem reject_status (s : State) : (reject s).status = s.status.rejected := rfl
@[simp] theorem reject_ops (s : State) : (reject s).ops = s.ops := rfl
@[simp] theorem reject_res (s : State) : (reject s).res = s.res := rfl
@[simp] theorem reject_env (s : State) : (reject s).env = s.env := rfl

/-! ## `resetStep` -/

@[simp] theorem resetStep_cfg (s : State) : (resetStep s).cfg = s.cfg := rfl
@[simp] theorem resetStep_cmd (s : State) : (resetStep s).cmd = 0#32 := rfl
@[simp] theorem resetStep_status (s : State) : (resetStep s).status = Status.idle := rfl
@[simp] theorem resetStep_ops (s : State) : (resetStep s).ops = Operands.reset s.cfg := rfl
@[simp] theorem resetStep_res (s : State) : (resetStep s).res = Results.reset s.cfg := rfl
@[simp] theorem resetStep_env (s : State) : (resetStep s).env = s.env := rfl

/-! ## `putV` -/

@[simp] theorem putV_cfg (v : Int) (s : State) : (putV v s).cfg = s.cfg := rfl
@[simp] theorem putV_cmd (v : Int) (s : State) : (putV v s).cmd = s.cmd := rfl
@[simp] theorem putV_status (v : Int) (s : State) : (putV v s).status = s.status := rfl
@[simp] theorem putV_ops (v : Int) (s : State) : (putV v s).ops = s.ops := rfl
@[simp] theorem putV_res (v : Int) (s : State) : (putV v s).res = { s.res with v := v } := rfl
@[simp] theorem putV_env (v : Int) (s : State) : (putV v s).env = s.env := rfl

/-! ## `putEuclid` -/

@[simp] theorem putEuclid_cfg (e : EuclidResult) (s : State) : (putEuclid e s).cfg = s.cfg := rfl
@[simp] theorem putEuclid_cmd (e : EuclidResult) (s : State) : (putEuclid e s).cmd = s.cmd := rfl
@[simp] theorem putEuclid_status (e : EuclidResult) (s : State) : (putEuclid e s).status = s.status := rfl
@[simp] theorem putEuclid_ops (e : EuclidResult) (s : State) : (putEuclid e s).ops = s.ops := rfl
@[simp] theorem putEuclid_env (e : EuclidResult) (s : State) : (putEuclid e s).env = s.env := rfl

/-! ## `putInverse` -/

@[simp] theorem putInverse_cfg (n : Nat) (d : Int) (f : Nat → Nat → Int) (s : State) : (putInverse n d f s).cfg = s.cfg := rfl
@[simp] theorem putInverse_cmd (n : Nat) (d : Int) (f : Nat → Nat → Int) (s : State) : (putInverse n d f s).cmd = s.cmd := rfl
@[simp] theorem putInverse_status (n : Nat) (d : Int) (f : Nat → Nat → Int) (s : State) : (putInverse n d f s).status = s.status := rfl
@[simp] theorem putInverse_ops (n : Nat) (d : Int) (f : Nat → Nat → Int) (s : State) : (putInverse n d f s).ops = s.ops := rfl
@[simp] theorem putInverse_res (n : Nat) (d : Int) (f : Nat → Nat → Int) (s : State) : (putInverse n d f s).res = { s.res with v := d, matOut := gridOf s.cfg.nmax n f } := rfl
@[simp] theorem putInverse_env (n : Nat) (d : Int) (f : Nat → Nat → Int) (s : State) : (putInverse n d f s).env = s.env := rfl

/-! ## `putKey` -/

@[simp] theorem putKey_cfg (n : Nat) (f : Nat → Nat → Int) (s : State) : (putKey n f s).cfg = s.cfg := rfl
@[simp] theorem putKey_cmd (n : Nat) (f : Nat → Nat → Int) (s : State) : (putKey n f s).cmd = s.cmd := rfl
@[simp] theorem putKey_status (n : Nat) (f : Nat → Nat → Int) (s : State) : (putKey n f s).status = s.status := rfl
@[simp] theorem putKey_ops (n : Nat) (f : Nat → Nat → Int) (s : State) : (putKey n f s).ops = { s.ops with n := BitVec.ofNat 8 n, matIn := gridOf s.cfg.nmax n f } := rfl
@[simp] theorem putKey_res (n : Nat) (f : Nat → Nat → Int) (s : State) : (putKey n f s).res = s.res := rfl
@[simp] theorem putKey_env (n : Nat) (f : Nat → Nat → Int) (s : State) : (putKey n f s).env = s.env := rfl

/-! ## `storeOperand` -/

@[simp] theorem storeOperand_cfg (r : Reg) (d : PortWord) (s : State) : (storeOperand r d s).cfg = s.cfg := rfl
@[simp] theorem storeOperand_cmd (r : Reg) (d : PortWord) (s : State) : (storeOperand r d s).cmd = s.cmd := rfl
@[simp] theorem storeOperand_status (r : Reg) (d : PortWord) (s : State) : (storeOperand r d s).status = s.status := rfl
@[simp] theorem storeOperand_ops (r : Reg) (d : PortWord) (s : State) : (storeOperand r d s).ops = writeOperand s.cfg.w s.ops r d := rfl
@[simp] theorem storeOperand_res (r : Reg) (d : PortWord) (s : State) : (storeOperand r d s).res = s.res := rfl
@[simp] theorem storeOperand_env (r : Reg) (d : PortWord) (s : State) : (storeOperand r d s).env = s.env := rfl

/-! ## `logRead` -/

@[simp] theorem logRead_cfg (ix : Index) (w : PortWord) (s : State) : (logRead ix w s).cfg = s.cfg := rfl
@[simp] theorem logRead_cmd (ix : Index) (w : PortWord) (s : State) : (logRead ix w s).cmd = s.cmd := rfl
@[simp] theorem logRead_status (ix : Index) (w : PortWord) (s : State) : (logRead ix w s).status = s.status := rfl
@[simp] theorem logRead_ops (ix : Index) (w : PortWord) (s : State) : (logRead ix w s).ops = s.ops := rfl
@[simp] theorem logRead_res (ix : Index) (w : PortWord) (s : State) : (logRead ix w s).res = s.res := rfl
@[simp] theorem logRead_env (ix : Index) (w : PortWord) (s : State) : (logRead ix w s).env = { s.env with reads := ⟨ix, w⟩ :: s.env.reads } := rfl

/-! ## `drawRead` -/

@[simp] theorem drawRead_cfg (ix : Index) (s : State) : (drawRead ix s).cfg = s.cfg := rfl
@[simp] theorem drawRead_cmd (ix : Index) (s : State) : (drawRead ix s).cmd = s.cmd := rfl
@[simp] theorem drawRead_status (ix : Index) (s : State) : (drawRead ix s).status = s.status := rfl
@[simp] theorem drawRead_ops (ix : Index) (s : State) : (drawRead ix s).ops = s.ops := rfl
@[simp] theorem drawRead_res (ix : Index) (s : State) : (drawRead ix s).res = s.res := rfl
@[simp] theorem drawRead_env (ix : Index) (s : State) : (drawRead ix s).env = { s.env with reads := ⟨ix, Config.freeRead s.env.draws⟩ :: s.env.reads, draws := s.env.draws + 1 } := rfl

/-! ## `popOp` -/

@[simp] theorem popOp_cfg (s : State) : (popOp s).cfg = s.cfg := rfl
@[simp] theorem popOp_cmd (s : State) : (popOp s).cmd = s.cmd := rfl
@[simp] theorem popOp_status (s : State) : (popOp s).status = s.status := rfl
@[simp] theorem popOp_ops (s : State) : (popOp s).ops = s.ops := rfl
@[simp] theorem popOp_res (s : State) : (popOp s).res = s.res := rfl
@[simp] theorem popOp_env (s : State) : (popOp s).env = { s.env with program := s.env.program.tail } := rfl

/-! ## `popTurn` -/

@[simp] theorem popTurn_cfg (s : State) : (popTurn s).cfg = s.cfg := rfl
@[simp] theorem popTurn_cmd (s : State) : (popTurn s).cmd = s.cmd := rfl
@[simp] theorem popTurn_status (s : State) : (popTurn s).status = s.status := rfl
@[simp] theorem popTurn_ops (s : State) : (popTurn s).ops = s.ops := rfl
@[simp] theorem popTurn_res (s : State) : (popTurn s).res = s.res := rfl
@[simp] theorem popTurn_env (s : State) : (popTurn s).env = { s.env with turns := s.env.turns.tail } := rfl

@[simp] theorem putEuclid_g (e : EuclidResult) (s : State) : (putEuclid e s).res.g = e.gcd := rfl
@[simp] theorem putEuclid_x (e : EuclidResult) (s : State) : (putEuclid e s).res.x = e.bezoutX := rfl
@[simp] theorem putEuclid_y (e : EuclidResult) (s : State) : (putEuclid e s).res.y = e.bezoutY := rfl
@[simp] theorem putEuclid_v (e : EuclidResult) (s : State) : (putEuclid e s).res.v = s.res.v := rfl
@[simp] theorem putEuclid_traceLen (e : EuclidResult) (s : State) :
    (putEuclid e s).res.traceLen = BitVec.ofNat 8 e.rows.length := rfl
@[simp] theorem putEuclid_trace (e : EuclidResult) (s : State) :
    (putEuclid e s).res.trace = (List.range s.cfg.traceDepth).map (traceRow e.rows) := rfl
@[simp] theorem putEuclid_matOut (e : EuclidResult) (s : State) : (putEuclid e s).res.matOut = s.res.matOut := rfl

/-! ## `STATUS` -/

@[simp] theorem Status.accepted_busy : (Status.accepted).busy = true := rfl
@[simp] theorem Status.accepted_done : (Status.accepted).done = false := rfl
@[simp] theorem Status.accepted_err : (Status.accepted).err = false := rfl
@[simp] theorem Status.accepted_rej : (Status.accepted).rej = false := rfl
@[simp] theorem Status.accepted_errcode : (Status.accepted).errcode = .none := rfl
@[simp] theorem Status.idle_busy : (Status.idle).busy = false := rfl
@[simp] theorem Status.idle_done : (Status.idle).done = false := rfl
@[simp] theorem Status.idle_err : (Status.idle).err = false := rfl
@[simp] theorem Status.idle_rej : (Status.idle).rej = false := rfl
@[simp] theorem Status.idle_errcode : (Status.idle).errcode = .none := rfl
@[simp] theorem Status.rejected_busy (st : Status) : (st.rejected).busy = st.busy := rfl
@[simp] theorem Status.rejected_done (st : Status) : (st.rejected).done = st.done := rfl
@[simp] theorem Status.rejected_err (st : Status) : (st.rejected).err = st.err := rfl
@[simp] theorem Status.rejected_rej (st : Status) : (st.rejected).rej = true := rfl
@[simp] theorem Status.rejected_errcode (st : Status) : (st.rejected).errcode = st.errcode := rfl
@[simp] theorem Status.completed_busy (st : Status) : (st.completed).busy = false := rfl
@[simp] theorem Status.completed_done (st : Status) : (st.completed).done = true := rfl
@[simp] theorem Status.completed_err (st : Status) : (st.completed).err = false := rfl
@[simp] theorem Status.completed_rej (st : Status) : (st.completed).rej = st.rej := rfl
@[simp] theorem Status.completed_errcode (st : Status) : (st.completed).errcode = .none := rfl
@[simp] theorem Status.failed_busy (c : ErrCode) (st : Status) : (st.failed c).busy = false := rfl
@[simp] theorem Status.failed_done (c : ErrCode) (st : Status) : (st.failed c).done = true := rfl
@[simp] theorem Status.failed_err (c : ErrCode) (st : Status) : (st.failed c).err = true := rfl
@[simp] theorem Status.failed_rej (c : ErrCode) (st : Status) : (st.failed c).rej = st.rej := rfl
@[simp] theorem Status.failed_errcode (c : ErrCode) (st : Status) : (st.failed c).errcode = c := rfl

/-! ## The host side of `State.withFetchWord` -/

@[simp] theorem withFetchWord_ops (s : State) (nbits w : Nat) : (s.withFetchWord nbits w).ops = s.ops := rfl
@[simp] theorem withFetchWord_res (s : State) (nbits w : Nat) : (s.withFetchWord nbits w).res = s.res := rfl
@[simp] theorem withFetchWord_cfg (s : State) (nbits w : Nat) : (s.withFetchWord nbits w).cfg = s.cfg := rfl
@[simp] theorem withFetchWord_status (s : State) (nbits w : Nat) : (s.withFetchWord nbits w).status = Status.accepted := rfl

end Sys2Proof.Machine
end

