-- ==== Sys2Proof/Laws/Euclid.lean ====
section
/-! SUPPORT. What integer Euclid does (R110 to R115): division, the loop's end, its invariants, its bounds. -/

namespace Sys2Proof.Machine

/-! ## Division -/

theorem floormod_eq_fmod (p q : Int) : floormod p q = Int.fmod p q := (Int.fmod_def p q).symm

theorem floordiv_mul_add_floormod (p q : Int) : floordiv p q * q + floormod p q = p := by
  unfold floormod; ring

theorem floormod_nonneg {q : Int} (p : Int) (h : 0 < q) : 0 ≤ floormod p q := by
  rw [floormod_eq_fmod]; exact Int.fmod_nonneg_of_pos p h

theorem floormod_lt {q : Int} (p : Int) (h : 0 < q) : floormod p q < q := by
  rw [floormod_eq_fmod]; exact Int.fmod_lt_of_pos p h

theorem floormod_eq_emod {q : Int} (p : Int) (h : 0 ≤ q) : floormod p q = p % q := by
  rw [floormod_eq_fmod]; exact Int.fmod_eq_emod_of_nonneg p h

theorem floordiv_neg_neg (p q : Int) : floordiv (-p) (-q) = floordiv p q := Int.neg_fdiv_neg p q

theorem floormod_neg_neg (p q : Int) : floormod (-p) (-q) = -floormod p q := by
  unfold floormod; rw [floordiv_neg_neg]; ring

theorem floormod_nonpos {q : Int} (p : Int) (h : q < 0) : floormod p q ≤ 0 := by
  have := floormod_nonneg (-p) (Int.neg_pos_of_neg h)
  rw [floormod_neg_neg] at this; omega

theorem lt_floormod {q : Int} (p : Int) (h : q < 0) : q < floormod p q := by
  have := floormod_lt (-p) (Int.neg_pos_of_neg h)
  rw [floormod_neg_neg] at this; omega

/-- `|p - q*floordiv p q| < |q|` at every sign (R110). -/
theorem floormod_natAbs_lt {q : Int} (p : Int) (h : q ≠ 0) : (floormod p q).natAbs < q.natAbs := by
  rcases lt_or_gt_of_ne h with h | h
  · have := floormod_nonpos p h; have := lt_floormod p h; omega
  · have := floormod_nonneg p h; have := floormod_lt p h; omega

/-! ## One iteration -/

theorem euclidStep_r (e : EuclidState) : (euclidStep e).r = floormod e.rPrev e.r := by
  simp only [euclidStep, euclidQuotient, floormod]; ring

@[simp] theorem euclidStep_rPrev (e : EuclidState) : (euclidStep e).rPrev = e.r := rfl
@[simp] theorem euclidStep_xPrev (e : EuclidState) : (euclidStep e).xPrev = e.x := rfl
@[simp] theorem euclidStep_yPrev (e : EuclidState) : (euclidStep e).yPrev = e.y := rfl
@[simp] theorem euclidStep_i (e : EuclidState) : (euclidStep e).i = e.i + 1 := rfl

theorem euclidStep_natAbs_lt {e : EuclidState} (h : e.r ≠ 0) : (euclidStep e).r.natAbs < e.r.natAbs := by
  rw [euclidStep_r]; exact floormod_natAbs_lt _ h

/-! ## The loop -/

theorem euclidLoop_zero (e : EuclidState) : euclidLoop 0 e = ([], e) := rfl

theorem euclidLoop_stop {e : EuclidState} (fuel : Nat) (h : e.r = 0) : euclidLoop fuel e = ([], e) := by
  cases fuel with
  | zero => rfl
  | succ n => simp [euclidLoop, h]

theorem euclidLoop_go {e : EuclidState} (fuel : Nat) (h : e.r ≠ 0) :
    euclidLoop (fuel + 1) e
      = (euclidRow e :: (euclidLoop fuel (euclidStep e)).1, (euclidLoop fuel (euclidStep e)).2) := by
  simp [euclidLoop, h]

/-- With `|r|` iterations allowed, the loop runs until its remainder is 0: the fuel never ends it. -/
theorem euclidLoop_ends (fuel : Nat) (e : EuclidState) (h : e.r.natAbs ≤ fuel) : (euclidLoop fuel e).2.r = 0 := by
  induction fuel generalizing e with
  | zero => simpa [euclidLoop] using h
  | succ n ih =>
    by_cases hr : e.r = 0
    · rw [euclidLoop_stop _ hr]; exact hr
    · rw [euclidLoop_go _ hr]
      have := euclidStep_natAbs_lt hr
      exact ih _ (by omega)

/-- An invariant of the iteration holds of the state the loop ends with. -/
theorem euclidLoop_invariant {P : EuclidState → Prop} (hstep : ∀ e, e.r ≠ 0 → P e → P (euclidStep e))
    (fuel : Nat) (e : EuclidState) (h : P e) : P (euclidLoop fuel e).2 := by
  induction fuel generalizing e with
  | zero => exact h
  | succ n ih =>
    by_cases hr : e.r = 0
    · rw [euclidLoop_stop _ hr]; exact h
    · rw [euclidLoop_go _ hr]; exact ih _ (hstep e hr h)

/-- What an invariant says of the row of each iteration holds of every row. -/
theorem euclidLoop_rows {P : EuclidState → Prop} {Q : EuclidRow → Prop} (hstep : ∀ e, e.r ≠ 0 → P e → P (euclidStep e))
    (hrow : ∀ e, e.r ≠ 0 → P e → Q (euclidRow e)) (fuel : Nat) (e : EuclidState) (h : P e) :
    ∀ row ∈ (euclidLoop fuel e).1, Q row := by
  induction fuel generalizing e with
  | zero => simp [euclidLoop]
  | succ n ih =>
    by_cases hr : e.r = 0
    · simp [euclidLoop_stop _ hr]
    · rw [euclidLoop_go _ hr]
      intro row hmem
      rcases List.mem_cons.mp hmem with rfl | hmem
      · exact hrow e hr h
      · exact ih _ (hstep e hr h) row hmem

/-- Row k carries the index `i + k`, and its quotient flag is 0 only in row 0 of the run (R113). -/
theorem euclidLoop_index (fuel : Nat) (e : EuclidState) (k : Nat) (row : EuclidRow)
    (h : (euclidLoop fuel e).1[k]? = some row) : row.index = e.i + k ∧ row.qv = decide (e.i + k ≠ 0) := by
  induction fuel generalizing e k with
  | zero => simp [euclidLoop] at h
  | succ n ih =>
    by_cases hr : e.r = 0
    · simp [euclidLoop_stop _ hr] at h
    · rw [euclidLoop_go _ hr] at h
      cases k with
      | zero =>
        simp only [List.getElem?_cons_zero, Option.some.injEq] at h
        subst h; simp [euclidRow]
      | succ k =>
        simp only [List.getElem?_cons_succ] at h
        have := ih _ k h
        simp only [euclidStep_i] at this
        constructor
        · omega
        · rw [this.2]; congr 1; simp only [ne_eq, eq_iff_iff]; omega

/-- Two iterations more than halve the remainder (R115). -/
theorem euclidStep_halves {e : EuclidState} (h : e.r ≠ 0) (h' : (euclidStep e).r ≠ 0) :
    2 * (euclidStep (euclidStep e)).r.natAbs < e.r.natAbs := by
  have key : ∀ p q : Int, 0 < q → q < p → 2 * floormod p q < p := by
    intro p q hq hp
    have h1 := floormod_lt p hq
    have h2 := floordiv_mul_add_floormod p q
    have h3 := floormod_nonneg p hq
    have h4 : 1 ≤ floordiv p q := by
      by_contra hc
      have : floordiv p q * q ≤ 0 := mul_nonpos_of_nonpos_of_nonneg (by omega) hq.le
      omega
    have h5 : q ≤ floordiv p q * q := by nlinarith
    omega
  rw [euclidStep_r (euclidStep e), euclidStep_rPrev]
  have hlt := euclidStep_natAbs_lt h
  rw [euclidStep_r] at h' hlt ⊢
  rcases lt_or_gt_of_ne h with hn | hp
  · have h1 := floormod_nonpos e.rPrev hn
    have h2 := lt_floormod e.rPrev hn
    have h3 := key (-e.r) (-floormod e.rPrev e.r) (by omega) (by omega)
    rw [floormod_neg_neg] at h3
    have h4 := floormod_nonpos e.r (q := floormod e.rPrev e.r) (by omega)
    omega
  · have h1 := floormod_nonneg e.rPrev hp
    have h3 := key e.r (floormod e.rPrev e.r) (by omega) (by omega)
    have h4 := floormod_nonneg e.r (q := floormod e.rPrev e.r) (by omega)
    omega

/-- The iteration bound behind R115: from `|r| <= 2^n` with n >= 1, at most 2n iterations. -/
theorem euclidLoop_length (n : Nat) (fuel : Nat) (e : EuclidState) (hn : 1 ≤ n) (h : e.r.natAbs ≤ 2 ^ n) :
    (euclidLoop fuel e).1.length ≤ 2 * n := by
  induction n generalizing fuel e with
  | zero => omega
  | succ n ih =>
    by_cases hr : e.r = 0
    · simp [euclidLoop_stop _ hr]
    cases fuel with
    | zero => simp [euclidLoop]
    | succ fuel =>
    rw [euclidLoop_go _ hr]
    by_cases hr1 : (euclidStep e).r = 0
    · rw [euclidLoop_stop _ hr1]; simp; omega
    cases fuel with
    | zero => simp [euclidLoop]; omega
    | succ fuel =>
    rw [euclidLoop_go _ hr1]
    have hh := euclidStep_halves hr hr1
    by_cases hr2 : (euclidStep (euclidStep e)).r = 0
    · rw [euclidLoop_stop _ hr2]; simp
    have hn1 : 1 ≤ n := by
      by_contra hc
      have : n = 0 := by omega
      subst this
      have : 1 ≤ (euclidStep (euclidStep e)).r.natAbs := by omega
      simp at h; omega
    have := ih fuel (euclidStep (euclidStep e)) hn1 (by rw [pow_succ] at h; omega)
    simp; omega

/-! ## The invariant of §3: every remainder is a combination of the operands -/

/-- Both remainders at the top of an iteration are the combinations of `a` and `b` that the coefficients name (R112). -/
def Bezout (a b : Int) (e : EuclidState) : Prop :=
  e.rPrev = a * e.xPrev + b * e.yPrev ∧ e.r = a * e.x + b * e.y

theorem bezout_start (a b : Int) : Bezout a b (euclidStart a b) := by
  simp [Bezout, euclidStart]

theorem bezout_step {a b : Int} {e : EuclidState} (h : Bezout a b e) : Bezout a b (euclidStep e) := by
  obtain ⟨h1, h2⟩ := h
  refine ⟨h2, ?_⟩
  simp only [euclidStep]
  rw [h1]
  linear_combination (-euclidQuotient e) * h2

/-- An iteration keeps the greatest common divisor of the two remainders. -/
theorem gcd_step (e : EuclidState) : Int.gcd (euclidStep e).rPrev (euclidStep e).r = Int.gcd e.rPrev e.r := by
  simp only [euclidStep]
  rw [Int.gcd_comm e.rPrev e.r, mul_comm, Int.gcd_sub_mul_left_right]

/-! ## Signs and magnitudes (R112, R114) -/

/-- After the first iteration: both remainders have the sign `sg` of `b`, and the second is smaller in magnitude. -/
structure Ordered (sg : Int) (e : EuclidState) : Prop where
  prev : 0 < sg * e.rPrev
  cur : 0 ≤ sg * e.r
  lt : sg * e.r < sg * e.rPrev

theorem ordered_first {sg : Int} {e : EuclidState} (hs : sg = 1 ∨ sg = -1) (h : 0 < sg * e.r) : Ordered sg (euclidStep e) := by
  have hr : (euclidStep e).r = floormod e.rPrev e.r := euclidStep_r e
  rcases hs with rfl | rfl
  · have h1 := floormod_nonneg e.rPrev (q := e.r) (by omega)
    have h2 := floormod_lt e.rPrev (q := e.r) (by omega)
    constructor <;> simp only [euclidStep_rPrev, hr] <;> omega
  · have h1 := floormod_nonpos e.rPrev (q := e.r) (by omega)
    have h2 := lt_floormod e.rPrev (q := e.r) (by omega)
    constructor <;> simp only [euclidStep_rPrev, hr] <;> omega

theorem ordered_step {sg : Int} {e : EuclidState} (hs : sg = 1 ∨ sg = -1) (h : Ordered sg e) (hr : e.r ≠ 0) :
    Ordered sg (euclidStep e) := by
  refine ordered_first hs (lt_of_le_of_ne h.cur ?_)
  rcases hs with rfl | rfl <;> omega

/-- Past the first iteration the quotient is at least 1 and at most the magnitude of the previous remainder. -/
theorem ordered_quotient {sg : Int} {e : EuclidState} (hs : sg = 1 ∨ sg = -1) (h : Ordered sg e) (hr : e.r ≠ 0) :
    1 ≤ euclidQuotient e ∧ euclidQuotient e ≤ sg * e.rPrev := by
  have h1 := floordiv_mul_add_floormod e.rPrev e.r
  have h2 := ordered_step hs h hr
  have hc := h2.cur; have hl := h2.lt
  rw [euclidStep_r] at hc hl
  rw [euclidStep_rPrev] at hl
  have hp := h.prev; have hlt := h.lt
  have hcur : 0 < sg * e.r := lt_of_le_of_ne h.cur (by rcases hs with rfl | rfl <;> omega)
  unfold euclidQuotient
  have h3 : floordiv e.rPrev e.r * (sg * e.r) = sg * e.rPrev - sg * floormod e.rPrev e.r := by
    linear_combination sg * h1
  constructor
  · by_contra hcon
    have : floordiv e.rPrev e.r * (sg * e.r) ≤ 0 := mul_nonpos_of_nonpos_of_nonneg (by omega) hcur.le
    omega
  · by_contra hcon
    have : floordiv e.rPrev e.r * 1 ≤ floordiv e.rPrev e.r * (sg * e.r) :=
      mul_le_mul_of_nonneg_left (by omega) (by omega)
    omega

/-- A coefficient pair alternates in sign, and its magnitudes weigh against the remainders to the constant `c`. -/
structure Alternates (sg t c z zPrev : Int) (e : EuclidState) : Prop where
  cur : 0 ≤ t * z
  prev : t * zPrev ≤ 0
  weigh : t * z * (sg * e.rPrev) - t * zPrev * (sg * e.r) = c

/-- An iteration keeps the alternation, with the sign flipped. -/
theorem alternates_step {sg t c z zPrev : Int} {e : EuclidState} (hs : sg = 1 ∨ sg = -1) (ho : Ordered sg e) (hr : e.r ≠ 0)
    (h : Alternates sg t c z zPrev e) :
    Alternates sg (-t) c (zPrev - euclidQuotient e * z) z (euclidStep e) := by
  have hq := (ordered_quotient hs ho hr).1
  have hc := h.cur; have hp := h.prev; have hw := h.weigh
  have hqz : 0 ≤ euclidQuotient e * (t * z) := mul_nonneg (by omega) hc
  refine ⟨?_, by linarith, ?_⟩
  · have : -t * (zPrev - euclidQuotient e * z) = -(t * zPrev) + euclidQuotient e * (t * z) := by ring
    omega
  · simp only [euclidStep]
    linear_combination hw

/-- An alternating coefficient, times a lower bound of the previous remainder's magnitude, is at most the constant. -/
theorem alternates_le {sg t c z zPrev d : Int} {e : EuclidState} (ho : Ordered sg e) (h : Alternates sg t c z zPrev e)
    (hd : d ≤ sg * e.rPrev) : t * z * d ≤ c := by
  have h1 : t * z * d ≤ t * z * (sg * e.rPrev) := mul_le_mul_of_nonneg_left hd h.cur
  have h2 : t * zPrev * (sg * e.r) ≤ 0 := mul_nonpos_of_nonpos_of_nonneg h.prev ho.cur
  have := h.weigh
  omega

/-- What holds at the top of every iteration but the first, for operands `a` and `b` with `b` not 0. The coefficient of `b` alternates
only from the second iteration on when `a` and `b` have opposite signs, so its bound is kept in a second form until then. -/
structure Late (a b : Int) (e : EuclidState) : Prop where
  bezout : Bezout a b e
  gcd : Int.gcd e.rPrev e.r = Int.gcd a b
  ordered : Ordered b.sign e
  x : ∃ t : Int, (t = 1 ∨ t = -1) ∧ Alternates b.sign t b.natAbs e.x e.xPrev e
  y : (∃ t : Int, (t = 1 ∨ t = -1) ∧ Alternates b.sign t a.natAbs e.y e.yPrev e)
    ∨ (e.rPrev = b ∧ e.yPrev = 1 ∧ 1 ≤ e.y ∧ e.y * b.natAbs = a.natAbs + e.r.natAbs ∧ a ≠ 0)

theorem sign_cases {b : Int} (h : b ≠ 0) : (b.sign = 1 ∧ 0 < b) ∨ (b.sign = -1 ∧ b < 0) := by
  rcases lt_or_gt_of_ne h with h | h
  · exact .inr ⟨Int.sign_eq_neg_one_of_neg h, h⟩
  · exact .inl ⟨Int.sign_eq_one_of_pos h, h⟩

theorem late_first {a b : Int} (hb : b ≠ 0) : Late a b (euclidStep (euclidStart a b)) := by
  have hs : b.sign = 1 ∨ b.sign = -1 := (sign_cases hb).imp And.left And.left
  have ho : Ordered b.sign (euclidStep (euclidStart a b)) :=
    ordered_first hs (by rcases sign_cases hb with ⟨h, h'⟩ | ⟨h, h'⟩ <;> simp [euclidStart, h] <;> omega)
  have hq : euclidQuotient (euclidStart a b) = floordiv a b := rfl
  have hr : (euclidStep (euclidStart a b)).r = floormod a b := euclidStep_r _
  have hd := floordiv_mul_add_floormod a b
  refine ⟨bezout_step (bezout_start a b), gcd_step _, ho, ⟨1, .inl rfl, ?_⟩, ?_⟩
  · have hx : (euclidStep (euclidStart a b)).x = 1 := by simp [euclidStep, euclidStart]
    have hxp : (euclidStep (euclidStart a b)).xPrev = 0 := rfl
    have hrp : (euclidStep (euclidStart a b)).rPrev = b := rfl
    refine ⟨by rw [hx]; omega, by rw [hxp]; omega, ?_⟩
    rw [hx, hxp, hrp]
    rcases sign_cases hb with ⟨h, h'⟩ | ⟨h, h'⟩ <;> rw [h] <;> omega
  · have hy : (euclidStep (euclidStart a b)).y = -floordiv a b := by
      show (0 : Int) - euclidQuotient (euclidStart a b) * 1 = _
      rw [hq]; ring
    have hyp : (euclidStep (euclidStart a b)).yPrev = 1 := rfl
    have hrp : (euclidStep (euclidStart a b)).rPrev = b := rfl
    have hoc := ho.cur; have hol := ho.lt
    rw [hr] at hoc hol; rw [hrp] at hol
    by_cases hf : 0 ≤ floordiv a b
    · left
      refine ⟨-1, .inr rfl, ?_, ?_, ?_⟩
      · rw [hy]; omega
      · rw [hyp]; omega
      · rw [hy, hyp, hrp, hr]
        have hpos : 0 ≤ floordiv a b * (b.sign * b) :=
          mul_nonneg hf (by rcases sign_cases hb with ⟨h, h'⟩ | ⟨h, h'⟩ <;> rw [h] <;> omega)
        rcases sign_cases hb with ⟨h, h'⟩ | ⟨h, h'⟩ <;> rw [h] at hpos hoc ⊢
        · have : (a.natAbs : Int) = a := by
            have : floordiv a b * (1 * b) = floordiv a b * b := by ring
            omega
          rw [this]; linear_combination hd
        · have : (a.natAbs : Int) = -a := by
            have : floordiv a b * (-1 * b) = -(floordiv a b * b) := by ring
            omega
          rw [this]; linear_combination -hd
    · right
      have hneg : floordiv a b * (b.sign * b) ≤ -(b.sign * b) := by
        have h1 : 0 < b.sign * b := by rcases sign_cases hb with ⟨h, h'⟩ | ⟨h, h'⟩ <;> rw [h] <;> omega
        nlinarith
      refine ⟨hrp, hyp, by rw [hy]; omega, ?_, ?_⟩
      · rw [hy, hr]
        rcases sign_cases hb with ⟨h, h'⟩ | ⟨h, h'⟩ <;> rw [h] at hneg hoc hol
        · have e1 : (b.natAbs : Int) = b := by omega
          have e2 : ((floormod a b).natAbs : Int) = floormod a b := by omega
          have e3 : (a.natAbs : Int) = -a := by
            have : floordiv a b * (1 * b) = floordiv a b * b := by ring
            omega
          rw [e1, e2, e3]; linear_combination -hd
        · have e1 : (b.natAbs : Int) = -b := by omega
          have e2 : ((floormod a b).natAbs : Int) = -floormod a b := by omega
          have e3 : (a.natAbs : Int) = a := by
            have : floordiv a b * (-1 * b) = -(floordiv a b * b) := by ring
            omega
          rw [e1, e2, e3]; linear_combination hd
      · rintro rfl
        have : floordiv 0 b = 0 := Int.zero_fdiv b
        omega

theorem late_step {a b : Int} {e : EuclidState} (hb : b ≠ 0) (hr : e.r ≠ 0) (h : Late a b e) : Late a b (euclidStep e) := by
  have hs : b.sign = 1 ∨ b.sign = -1 := (sign_cases hb).imp And.left And.left
  have ho := ordered_step hs h.ordered hr
  have flip : ∀ t : Int, (t = 1 ∨ t = -1) → (-t = 1 ∨ -t = -1) := by intro t ht; omega
  refine ⟨bezout_step h.bezout, (gcd_step e).trans h.gcd, ho, ?_, .inl ?_⟩
  · obtain ⟨t, ht, hx⟩ := h.x
    exact ⟨-t, flip t ht, alternates_step hs h.ordered hr hx⟩
  · rcases h.y with ⟨t, ht, hy⟩ | ⟨hrp, hyp, hy, hw, ha⟩
    · exact ⟨-t, flip t ht, alternates_step hs h.ordered hr hy⟩
    · have hq := (ordered_quotient hs h.ordered hr).1
      have hoc := h.ordered.cur
      have hqy : 1 ≤ euclidQuotient e * e.y := by nlinarith
      have hstep : (euclidStep e).y = 1 - euclidQuotient e * e.y := by simp only [euclidStep, hyp]
      refine ⟨-1, .inr rfl, by rw [hstep]; omega, by rw [euclidStep_yPrev]; omega, ?_⟩
      rw [hstep, euclidStep_yPrev, euclidStep_rPrev]
      have hrn : (euclidStep e).r = b - euclidQuotient e * e.r := by simp only [euclidStep, hrp]
      rw [hrn]
      have e1 : (b.natAbs : Int) = b.sign * b := by
        rcases sign_cases hb with ⟨h, h'⟩ | ⟨h, h'⟩ <;> rw [h] <;> omega
      have e2 : (e.r.natAbs : Int) = b.sign * e.r := by
        rcases sign_cases hb with ⟨h, h'⟩ | ⟨h, h'⟩ <;> rw [h] at hoc ⊢ <;> omega
      rw [e1, e2] at hw
      linear_combination hw

/-! ## Bounds -/

theorem sign_mul_self {b : Int} : b.sign * b = b.natAbs := by
  rcases lt_trichotomy b 0 with h | rfl | h
  · rw [Int.sign_eq_neg_one_of_neg h]; omega
  · rfl
  · rw [Int.sign_eq_one_of_pos h]; omega

/-- The greatest common divisor is at most the previous remainder's magnitude. -/
theorem late_gcd_le {a b : Int} {e : EuclidState} (h : Late a b e) : (Int.gcd a b : Int) ≤ b.sign * e.rPrev := by
  have h1 : (Int.gcd a b : Int) ∣ e.rPrev := h.gcd ▸ Int.gcd_dvd_left ..
  have h2 : (Int.gcd a b : Int) ∣ b.sign * e.rPrev := Dvd.dvd.mul_left h1 _
  exact Int.le_of_dvd h.ordered.prev h2

theorem late_x_gcd {a b : Int} {e : EuclidState} (h : Late a b e) :
    e.x.natAbs * Int.gcd a b ≤ b.natAbs := by
  obtain ⟨t, ht, hx⟩ := h.x
  have h1 := alternates_le h.ordered hx (late_gcd_le h)
  have h2 : t * e.x = e.x.natAbs := by
    have := hx.cur
    rcases ht with rfl | rfl <;> omega
  rw [h2] at h1
  exact_mod_cast h1

theorem late_y_gcd {a b : Int} {e : EuclidState} (hb : b ≠ 0) (h : Late a b e) :
    e.y.natAbs * Int.gcd a b ≤ a.natAbs := by
  rcases h.y with ⟨t, ht, hy⟩ | ⟨hrp, hyp, hy, hw, ha⟩
  · have h1 := alternates_le h.ordered hy (late_gcd_le h)
    have h2 : t * e.y = e.y.natAbs := by
      have := hy.cur
      rcases ht with rfl | rfl <;> omega
    rw [h2] at h1
    exact_mod_cast h1
  · obtain ⟨k, hk⟩ : Int.gcd a b ∣ b.natAbs := Int.gcd_dvd_natAbs_right a b
    obtain ⟨l, hl⟩ : Int.gcd a b ∣ a.natAbs := Int.gcd_dvd_natAbs_left a b
    obtain ⟨m, hm⟩ : Int.gcd a b ∣ e.r.natAbs := by
      have : (Int.gcd a b : Int) ∣ e.r := h.gcd ▸ Int.gcd_dvd_right ..
      exact Int.natCast_dvd.mp this
    have hg : 0 < Int.gcd a b := Int.gcd_pos_of_ne_zero_right a hb
    have hlt : e.r.natAbs < b.natAbs := by
      have h1 := h.ordered.lt; have h2 := h.ordered.cur
      rw [hrp] at h1
      rcases sign_cases hb with ⟨hs, h'⟩ | ⟨hs, h'⟩ <;> rw [hs] at h1 h2 <;> omega
    have hy' : e.y.natAbs * b.natAbs = a.natAbs + e.r.natAbs := by
      have : ((e.y.natAbs : Int)) = e.y := by omega
      have h3 : ((e.y.natAbs * b.natAbs : Nat) : Int) = (a.natAbs + e.r.natAbs : Nat) := by
        push_cast; rw [← Int.natCast_natAbs, ← Int.natCast_natAbs, ← Int.natCast_natAbs, ← Int.natCast_natAbs, this]; exact hw
      exact_mod_cast h3
    rw [hk, hm] at hlt
    have hmk : m < k := Nat.lt_of_mul_lt_mul_left hlt
    have hl1 : 1 ≤ l := by
      rcases Nat.eq_zero_or_pos l with rfl | h0
      · simp at hl; exact absurd hl ha
      · exact h0
    rw [hk, hl, hm] at hy'
    have hyk : e.y.natAbs * k = l + m := by
      have : Int.gcd a b * (e.y.natAbs * k) = Int.gcd a b * (l + m) := by linarith
      exact Nat.eq_of_mul_eq_mul_left hg this
    have hyl : e.y.natAbs ≤ l := by
      by_contra hc
      have : (l + 1) * k ≤ e.y.natAbs * k := Nat.mul_le_mul_right k (by omega)
      have : l ≤ l * k := Nat.le_mul_of_pos_right l (by omega)
      have : (l + 1) * k = l * k + k := by ring
      omega
    rw [hl, Nat.mul_comm]
    exact Nat.mul_le_mul_left _ hyl

/-- The bounds that the values of an iteration past the first keep (R114): the remainders lie between 0 and `b`, and the previous
coefficients within the operands. -/
structure Bounded (a b : Int) (e : EuclidState) : Prop where
  late : Late a b e
  prev : b.sign * e.rPrev ≤ b.natAbs
  xPrev : e.xPrev.natAbs ≤ b.natAbs
  yPrev : e.yPrev.natAbs ≤ max 1 a.natAbs

theorem late_x {a b : Int} {e : EuclidState} (hb : b ≠ 0) (h : Late a b e) : e.x.natAbs ≤ b.natAbs :=
  le_trans (Nat.le_mul_of_pos_right _ (Int.gcd_pos_of_ne_zero_right a hb)) (late_x_gcd h)

theorem late_y {a b : Int} {e : EuclidState} (hb : b ≠ 0) (h : Late a b e) : e.y.natAbs ≤ a.natAbs :=
  le_trans (Nat.le_mul_of_pos_right _ (Int.gcd_pos_of_ne_zero_right a hb)) (late_y_gcd hb h)

theorem bounded_first {a b : Int} (hb : b ≠ 0) : Bounded a b (euclidStep (euclidStart a b)) := by
  refine ⟨late_first hb, ?_, ?_, ?_⟩
  · rw [show (euclidStep (euclidStart a b)).rPrev = b from rfl, sign_mul_self]
  · rw [show (euclidStep (euclidStart a b)).xPrev = 0 from rfl]; omega
  · rw [show (euclidStep (euclidStart a b)).yPrev = 1 from rfl]; exact le_max_left _ _

theorem bounded_step {a b : Int} {e : EuclidState} (hb : b ≠ 0) (hr : e.r ≠ 0) (h : Bounded a b e) :
    Bounded a b (euclidStep e) := by
  refine ⟨late_step hb hr h.late, ?_, ?_, ?_⟩
  · have := h.late.ordered.lt; have := h.prev
    rw [euclidStep_rPrev]; omega
  · rw [euclidStep_xPrev]; exact late_x hb h.late
  · rw [euclidStep_yPrev]; exact le_trans (late_y hb h.late) (le_max_right _ _)

/-! ## `EEA` as a whole -/

theorem euclid_zero (a : Int) : euclid a 0 = { gcd := a, bezoutX := 1, bezoutY := 0, rows := [] } := rfl

/-- For `b` not 0 the loop runs at least once, and what follows the first iteration starts bounded. -/
theorem euclid_run {a b : Int} (hb : b ≠ 0) :
    euclidLoop b.natAbs (euclidStart a b)
      = (euclidRow (euclidStart a b) :: (euclidLoop (b.natAbs - 1) (euclidStep (euclidStart a b))).1,
          (euclidLoop (b.natAbs - 1) (euclidStep (euclidStart a b))).2) := by
  obtain ⟨n, hn⟩ : ∃ n, b.natAbs = n + 1 := ⟨b.natAbs - 1, by omega⟩
  rw [hn, Nat.add_sub_cancel]
  exact euclidLoop_go n hb

/-- The state `EEA(a, b)` ends with, for `b` not 0: its remainder is 0, and it is bounded. -/
theorem euclid_end {a b : Int} (hb : b ≠ 0) :
    ∃ e, Bounded a b e ∧ e.r = 0 ∧ (euclid a b).gcd = e.rPrev ∧ (euclid a b).bezoutX = e.xPrev ∧ (euclid a b).bezoutY = e.yPrev := by
  refine ⟨(euclidLoop b.natAbs (euclidStart a b)).2, ?_, euclidLoop_ends _ _ (le_refl _), rfl, rfl, rfl⟩
  rw [euclid_run hb]
  exact euclidLoop_invariant (fun e hr h => bounded_step hb hr h) _ _ (bounded_first hb)

/-- `gcd = a*bezout_x + b*bezout_y` exactly (R112, property 1). -/
theorem euclid_bezout (a b : Int) : (euclid a b).gcd = a * (euclid a b).bezoutX + b * (euclid a b).bezoutY :=
  (euclidLoop_invariant (P := Bezout a b) (fun _ _ h => bezout_step h) _ _ (bezout_start a b)).1

/-- `|gcd|` is the greatest common divisor (R112, property 2). -/
theorem euclid_gcd_natAbs (a b : Int) : (euclid a b).gcd.natAbs = Int.gcd a b := by
  have h := euclidLoop_invariant (P := fun e => Int.gcd e.rPrev e.r = Int.gcd a b)
    (fun e _ h => (gcd_step e).trans h) b.natAbs (euclidStart a b) rfl
  rw [euclidLoop_ends b.natAbs (euclidStart a b) (le_refl _), Int.gcd_zero_right] at h
  exact h

/-- For `b` not 0 the gcd has the sign of `b` (R112, property 3). -/
theorem euclid_sign {a b : Int} (hb : b ≠ 0) : 0 < b.sign * (euclid a b).gcd := by
  obtain ⟨e, h, _, hg, _⟩ := euclid_end (a := a) hb
  rw [hg]; exact h.late.ordered.prev

/-- For a positive `b` the gcd is the positive greatest common divisor (R117). -/
theorem euclid_gcd_pos {a b : Int} (hb : 0 < b) : (euclid a b).gcd = Int.gcd a b := by
  have h1 := euclid_sign (a := a) (b := b) (by omega)
  have h2 := euclid_gcd_natAbs a b
  rw [Int.sign_eq_one_of_pos hb] at h1
  omega

/-- A row of `EEA(a, b)`: its values are those of a bounded state, and its quotient is within the operands. -/
theorem euclid_row {a b : Int} (hb : b ≠ 0) :
    ∀ row ∈ (euclid a b).rows, (∃ e, Bounded a b e ∧ row.remainder = e.r ∧ row.bezoutX = e.x ∧ row.bezoutY = e.y)
      ∧ row.quotient.natAbs ≤ max a.natAbs b.natAbs := by
  intro row hmem
  have hrows : (euclid a b).rows = (euclidLoop b.natAbs (euclidStart a b)).1 := rfl
  rw [hrows, euclid_run hb] at hmem
  rcases List.mem_cons.mp hmem with rfl | hmem
  · refine ⟨⟨_, bounded_first hb, rfl, rfl, rfl⟩, ?_⟩
    have h1 := late_y hb (late_first (a := a) hb)
    have h2 : (euclidStep (euclidStart a b)).y = -(euclidRow (euclidStart a b)).quotient := by
      show (0 : Int) - euclidQuotient (euclidStart a b) * 1 = -euclidQuotient (euclidStart a b)
      ring
    rw [h2, Int.natAbs_neg] at h1
    exact le_trans h1 (le_max_left _ _)
  · refine euclidLoop_rows (P := Bounded a b)
      (Q := fun row => (∃ e, Bounded a b e ∧ row.remainder = e.r ∧ row.bezoutX = e.x ∧ row.bezoutY = e.y)
        ∧ row.quotient.natAbs ≤ max a.natAbs b.natAbs)
      (fun e hr h => bounded_step hb hr h) (fun e hr h => ?_) _ _ (bounded_first hb) row hmem
    refine ⟨⟨_, bounded_step hb hr h, rfl, rfl, rfl⟩, ?_⟩
    have hq := ordered_quotient ((sign_cases hb).imp And.left And.left) h.late.ordered hr
    have := h.prev
    have : (euclidRow e).quotient = euclidQuotient e := rfl
    rw [this]
    exact le_trans (by omega) (le_max_right a.natAbs b.natAbs)

/-! ## Fit in the registers (R114, R115) -/

theorem fitsSigned_of_natAbs {w : Nat} {v : Int} (h : v.natAbs ≤ 2 ^ (w - 1)) (hw : 1 ≤ w) : fitsSigned (w + 1) v := by
  obtain ⟨n, rfl⟩ : ∃ n, w = n + 1 := ⟨w - 1, by omega⟩
  simp only [Nat.add_sub_cancel] at h
  have h' : (v.natAbs : Int) ≤ 2 ^ n := by exact_mod_cast h
  have hp : (0 : Int) < 2 ^ n := by positivity
  simp only [fitsSigned, Nat.add_sub_cancel, pow_succ]
  omega

theorem natAbs_le_of_fitsSigned {w : Nat} {v : Int} (h : fitsSigned w v) : v.natAbs ≤ 2 ^ (w - 1) := by
  have : (v.natAbs : Int) ≤ 2 ^ (w - 1) := by omega
  exact_mod_cast this

theorem fitsSigned_zero (w : Nat) : fitsSigned w 0 := by
  have : (0 : Int) < 2 ^ (w - 1) := by positivity
  omega

theorem fitsSigned_mono {w : Nat} {v : Int} (h : fitsSigned w v) : fitsSigned (w + 1) v := by
  have h1 : (2 : Int) ^ (w - 1) ≤ 2 ^ w := pow_le_pow_right₀ (by norm_num) (by omega)
  simp only [fitsSigned, Nat.add_sub_cancel] at *
  omega

/-- A value between 0 and a value that fits, fits. -/
theorem fitsSigned_between {w : Nat} {b v : Int} (h : fitsSigned w b) (h1 : 0 ≤ b.sign * v) (h2 : b.sign * v ≤ b.natAbs)
    (hb : b ≠ 0) : fitsSigned w v := by
  have : (0 : Int) < 2 ^ (w - 1) := by positivity
  rcases sign_cases hb with ⟨hs, h'⟩ | ⟨hs, h'⟩ <;> rw [hs] at h1 h2 <;> omega

/-- For W-bit operands every value of a row fits its register (R114). -/
theorem euclid_row_fits {w : Nat} {a b : Int} (hw : 1 ≤ w) (ha : fitsSigned w a) (hb : fitsSigned w b) :
    ∀ row ∈ (euclid a b).rows, fitsSigned w row.remainder ∧ fitsSigned (w + 1) row.quotient
      ∧ fitsSigned (w + 1) row.bezoutX ∧ fitsSigned (w + 1) row.bezoutY := by
  intro row hmem
  by_cases hz : b = 0
  · subst hz; rw [euclid_zero] at hmem; simp at hmem
  obtain ⟨⟨e, he, hr, hx, hy⟩, hq⟩ := euclid_row hz row hmem
  have hA := natAbs_le_of_fitsSigned ha
  have hB := natAbs_le_of_fitsSigned hb
  refine ⟨?_, fitsSigned_of_natAbs (le_trans hq (max_le hA hB)) hw, ?_, ?_⟩
  · rw [hr]
    exact fitsSigned_between hb he.late.ordered.cur (le_trans he.late.ordered.lt.le he.prev) hz
  · rw [hx]; exact fitsSigned_of_natAbs (le_trans (late_x hz he.late) hB) hw
  · rw [hy]; exact fitsSigned_of_natAbs (le_trans (late_y hz he.late) hA) hw

/-- For W-bit operands the result fits its registers (R114). -/
theorem euclid_fits {w : Nat} {a b : Int} (hw : 2 ≤ w) (ha : fitsSigned w a) (hb : fitsSigned w b) :
    fitsSigned w (euclid a b).gcd ∧ fitsSigned (w + 1) (euclid a b).bezoutX ∧ fitsSigned (w + 1) (euclid a b).bezoutY := by
  have h1 : 1 ≤ 2 ^ (w - 1) := Nat.one_le_two_pow
  by_cases hz : b = 0
  · subst hz; rw [euclid_zero]
    exact ⟨ha, fitsSigned_of_natAbs (by simpa using h1) (by omega), fitsSigned_of_natAbs (by simp) (by omega)⟩
  obtain ⟨e, he, _, hg, hx, hy⟩ := euclid_end (a := a) hz
  have hA := natAbs_le_of_fitsSigned ha
  have hB := natAbs_le_of_fitsSigned hb
  rw [hg, hx, hy]
  exact ⟨fitsSigned_between hb he.late.ordered.prev.le he.prev hz, fitsSigned_of_natAbs (le_trans he.xPrev hB) (by omega),
    fitsSigned_of_natAbs (le_trans he.yPrev (max_le h1 hA)) (by omega)⟩

/-- For W-bit operands at most 2*W - 2 rows (R115). -/
theorem euclid_rows_length {w : Nat} {a b : Int} (hw : 2 ≤ w) (hb : fitsSigned w b) : (euclid a b).rows.length ≤ 2 * w - 2 := by
  have := euclidLoop_length (w - 1) b.natAbs (euclidStart a b) (by omega) (natAbs_le_of_fitsSigned hb)
  have h2 : (euclid a b).rows = (euclidLoop b.natAbs (euclidStart a b)).1 := rfl
  rw [h2]; omega

/-- Row k of the trace holds index k and the quotient flag of R113. -/
theorem euclid_row_index {a b : Int} {k : Nat} {row : EuclidRow} (h : (euclid a b).rows[k]? = some row) :
    row.index = k ∧ row.qv = decide (k ≠ 0) := by
  have := euclidLoop_index b.natAbs (euclidStart a b) k row h
  simpa [euclidStart] using this

end Sys2Proof.Machine
end

