-- ==== Sys2Proof/Laws/Completion.lean ====
section
/-! SUPPORT. What the shared operations answer: completion, modular inverse, operand checks, key checks, widths. -/

namespace Sys2Proof.Machine

open Sys2Proof.Config

/-! ## Completion (R205 to R207) -/

@[simp] theorem conclude_ok (s s' : State) : conclude s (.ok s') = .next (complete s') := rfl
@[simp] theorem conclude_error (s : State) (c : ErrCode) : conclude s (.error c) = .next (raiseErr c s) := rfl

/-- All that a completion can do: complete with the command's writes, or change `STATUS` alone. -/
theorem conclude_cases {s t : State} {r : Except ErrCode State} (h : conclude s r = .next t) :
    (∃ s', r = .ok s' ∧ t = complete s') ∨ (∃ c, r = .error c ∧ t = raiseErr c s) := by
  cases r with
  | ok s' => simp only [conclude_ok, Host.Outcome.next.injEq] at h; exact .inl ⟨s', rfl, h.symm⟩
  | error c => simp only [conclude_error, Host.Outcome.next.injEq] at h; exact .inr ⟨c, rfl, h.symm⟩

theorem conclude_next (s : State) (r : Except ErrCode State) : ∃ t, conclude s r = .next t := by
  cases r with
  | ok s' => exact ⟨_, rfl⟩
  | error c => exact ⟨_, rfl⟩

/-! ## Modular inverse (R116, R117, R176) -/

/-- For m >= 1: the failure when the operands share a factor, else a value of [0, m) that is inverse to `a` modulo m. -/
theorem inverseMod_cases (failure : ErrCode) (a : Int) {m : Int} (hm : 1 ≤ m) :
    (Int.gcd a m ≠ 1 ∧ inverseMod failure a m = .error failure)
      ∨ (Int.gcd a m = 1 ∧ ∃ v, inverseMod failure a m = .ok v ∧ 0 ≤ v ∧ v < m ∧ m ∣ a * v - 1) := by
  have hg := euclid_gcd_pos (a := a) (b := m) (by omega)
  by_cases h : Int.gcd a m = 1
  · right
    have h1 : (euclid a m).gcd = 1 := by omega
    refine ⟨h, floormod (euclid a m).bezoutX m, by simp [inverseMod, h1], floormod_nonneg _ (by omega),
      floormod_lt _ (by omega), ?_⟩
    have hb := euclid_bezout a m
    rw [h1] at hb
    refine ⟨-(euclid a m).bezoutY - a * floordiv (euclid a m).bezoutX m, ?_⟩
    unfold floormod
    linear_combination -hb
  · left
    refine ⟨h, ?_⟩
    have h1 : (euclid a m).gcd ≠ 1 := by omega
    simp [inverseMod, h1]

/-! ## Widths (R72) -/

theorem narrowSigned_fits {w : Nat} (hw : 1 ≤ w) (d : PortWord) : fitsSigned w (narrowSigned w d) := by
  unfold narrowSigned
  have h1 := BitVec.two_mul_toInt_lt (x := d.setWidth w)
  have h2 := BitVec.le_two_mul_toInt (x := d.setWidth w)
  obtain ⟨n, rfl⟩ : ∃ n, w = n + 1 := ⟨w - 1, by omega⟩
  simp only [fitsSigned, Nat.add_sub_cancel]
  push_cast [pow_succ] at h1 h2
  omega

/-! ## Matrix register arrays -/

theorem gridOf_length (nmax n : Nat) (f : Nat → Nat → Int) : (gridOf nmax n f).length = nmax := by simp [gridOf]

/-- An entry of a whole array: `f` in the square, 0 outside it. -/
theorem gridEntry_gridOf {nmax n i j : Nat} (f : Nat → Nat → Int) (hi : i < nmax) (hj : j < nmax) :
    gridEntry (gridOf nmax n f) i j = if i < n ∧ j < n then f i j else 0 := by
  simp [gridEntry, gridOf, hi, hj]

theorem gridOf_rows {nmax n : Nat} {f : Nat → Nat → Int} {row : List Int} (h : row ∈ gridOf nmax n f) :
    row.length = nmax ∧ ∀ v ∈ row, v = 0 ∨ ∃ i j, i < n ∧ j < n ∧ v = f i j := by
  simp only [gridOf, List.mem_map, List.mem_range] at h
  obtain ⟨i, hi, rfl⟩ := h
  refine ⟨by simp, ?_⟩
  intro v hv
  simp only [List.mem_map, List.mem_range] at hv
  obtain ⟨j, hj, rfl⟩ := hv
  by_cases hc : i < n ∧ j < n
  · exact .inr ⟨i, j, hc.1, hc.2, by simp [hc]⟩
  · exact .inl (by simp [hc])

/-- Writing entry (i, j) of an array of the right shape changes that entry and no other. -/
theorem gridEntry_gridSet {nmax w : Nat} {g : Grid} (h : gridWf nmax w g) {i j : Nat} (v : Int) (hi : i < nmax) (hj : j < nmax)
    (p q : Nat) : gridEntry (gridSet g i j v) p q = if p = i ∧ q = j then v else gridEntry g p q := by
  have hlen := h.1
  have hrow : (g.getD i []).length = nmax := by
    have : g.getD i [] = g[i] := by simp [List.getD, hlen, hi]
    rw [this]; exact (h.2 _ (List.getElem_mem _)).1
  unfold gridEntry gridSet
  by_cases hp : p = i
  · subst hp
    have : (g.set p ((g.getD p []).set j v)).getD p [] = (g.getD p []).set j v := by
      simp [List.getD, hlen, hi]
    rw [this]
    by_cases hq : q = j
    · subst hq
      have hq' : q < (g.getD p []).length := by omega
      simp only [List.getD, List.getElem?_set, and_self, if_true] at hq' ⊢
      rw [if_pos hq']; rfl
    · have : j ≠ q := fun h => hq h.symm
      simp [List.getD, hq, this]
  · have : i ≠ p := fun h => hp h.symm
    simp [List.getD, hp, this]

theorem gridSet_wf {nmax w : Nat} {g : Grid} (h : gridWf nmax w g) {i j : Nat} {v : Int} (hv : fitsSigned w v) (hi : i < nmax) :
    gridWf nmax w (gridSet g i j v) := by
  have hlen := h.1
  have hget : g.getD i [] = g[i] := by simp [List.getD, hlen, hi]
  have hmem := h.2 _ (List.getElem_mem (l := g) (n := i) (by omega))
  refine ⟨by simp [gridSet, hlen], ?_⟩
  intro row hrow
  unfold gridSet at hrow
  rcases List.mem_or_eq_of_mem_set hrow with h1 | rfl
  · exact h.2 row h1
  · rw [hget]
    refine ⟨by simp [hmem.1], ?_⟩
    intro u hu
    rcases List.mem_or_eq_of_mem_set hu with h1 | rfl
    · exact hmem.2 u h1
    · exact hv

/-! ## Operand checks -/

/-- A field element in range is its own value in 8 bits (R140). -/
theorem fieldElement_ok {v : Int} (h0 : 0 ≤ v) (h1 : v ≤ 255) : fieldElement v = .ok (BitVec.ofInt 8 v) := by
  simp only [fieldElement]; rw [if_neg (by omega)]

theorem fieldElement_error {v : Int} (h : v < 0 ∨ 255 < v) : fieldElement v = .error .invalidOperand := by
  simp only [fieldElement]; rw [if_pos (by omega)]

/-- The two outcomes of reading two field elements (R150). -/
theorem fieldOperands_cases (s : State) :
    ((0 ≤ s.ops.a ∧ s.ops.a ≤ 255 ∧ 0 ≤ s.ops.b ∧ s.ops.b ≤ 255)
        ∧ fieldOperands s = .ok (BitVec.ofInt 8 s.ops.a, BitVec.ofInt 8 s.ops.b))
      ∨ (¬(0 ≤ s.ops.a ∧ s.ops.a ≤ 255 ∧ 0 ≤ s.ops.b ∧ s.ops.b ≤ 255) ∧ fieldOperands s = .error .invalidOperand) := by
  by_cases ha : 0 ≤ s.ops.a ∧ s.ops.a ≤ 255 <;> by_cases hb : 0 ≤ s.ops.b ∧ s.ops.b ≤ 255
  · exact .inl ⟨⟨ha.1, ha.2, hb.1, hb.2⟩, by simp [fieldOperands, fieldElement_ok ha.1 ha.2, fieldElement_ok hb.1 hb.2]⟩
  · refine .inr ⟨fun h => hb ⟨h.2.2.1, h.2.2.2⟩, ?_⟩
    simp [fieldOperands, fieldElement_ok ha.1 ha.2, fieldElement_error (v := s.ops.b) (by omega)]
  · refine .inr ⟨fun h => ha ⟨h.1, h.2.1⟩, ?_⟩
    simp [fieldOperands, fieldElement_error (v := s.ops.a) (by omega)]
  · refine .inr ⟨fun h => ha ⟨h.1, h.2.1⟩, ?_⟩
    simp [fieldOperands, fieldElement_error (v := s.ops.a) (by omega)]

/-- What a GF(2^8) command writes is the field element where it fits, and always fits and is not negative (R40, log entry 6). -/
theorem fieldResult_fits (s : State) (i : Instr) (b : Int) (r : Byte) :
    fitsSigned s.cfg.w (fieldResult s i b r) ∧ 0 ≤ fieldResult s i b r := by
  unfold fieldResult
  split
  · next h => exact ⟨h, by omega⟩
  · have hp : 0 < 2 ^ (s.cfg.w - 1) := Nat.pos_of_ne_zero (by positivity)
    have h1 := Nat.mod_lt (freeFieldResult s.cfg.w (opcode i).toNat s.ops.a b) hp
    have h2 : ((freeFieldResult s.cfg.w (opcode i).toNat s.ops.a b % 2 ^ (s.cfg.w - 1) : Nat) : Int)
        < ((2 ^ (s.cfg.w - 1) : Nat) : Int) := by exact_mod_cast h1
    push_cast at h2 ⊢
    have h3 : (0 : Int) ≤ (freeFieldResult s.cfg.w (opcode i).toNat s.ops.a b : Int) % 2 ^ (s.cfg.w - 1) :=
      Int.emod_nonneg _ (by positivity)
    exact ⟨⟨by omega, h2⟩, h3⟩

theorem fieldResult_of_fits {s : State} {r : Byte} (i : Instr) (b : Int) (h : fitsSigned s.cfg.w r.toNat) :
    fieldResult s i b r = r.toNat := by
  unfold fieldResult; rw [if_pos h]

/-- From W = 9 on every field element fits a W-bit signed register. -/
theorem fits_byte {w : Nat} (hw : 9 ≤ w) (r : Byte) : fitsSigned w r.toNat := by
  have h1 : (2 : Int) ^ 8 ≤ 2 ^ (w - 1) := pow_le_pow_right₀ (by norm_num) (by omega)
  have := r.isLt
  norm_num at h1
  omega

theorem entriesInRange_iff {n : Nat} {m : Int} {S : Nat → Nat → Int} :
    entriesInRange n m S = true ↔ ∀ i < n, ∀ j < n, 0 ≤ S i j ∧ S i j < m := by
  simp [entriesInRange]

/-- The dimension that passed R174's checks, and what passed. -/
theorem matrixDimension_ok {s : State} {n : Nat} (h : matrixDimension s = .ok n) :
    n = s.ops.n.toNat ∧ 1 ≤ n ∧ n ≤ s.cfg.nmax ∧ 1 ≤ s.ops.m
      ∧ ∀ i < n, ∀ j < n, 0 ≤ matrixOperand s i j ∧ matrixOperand s i j < s.ops.m := by
  unfold matrixDimension at h
  split at h <;> try contradiction
  split at h <;> try contradiction
  split at h <;> try contradiction
  split at h <;> try contradiction
  next h1 h2 h3 h4 =>
    cases h
    exact ⟨rfl, by omega, by omega, by omega, entriesInRange_iff.mp h4⟩

/-! ## Key loader -/

theorem isqrtFrom_spec (v fuel r : Nat) (hr : r * r ≤ v) (hf : v < (r + fuel + 1) * (r + fuel + 1)) :
    isqrtFrom v fuel r * isqrtFrom v fuel r ≤ v ∧ v < (isqrtFrom v fuel r + 1) * (isqrtFrom v fuel r + 1) := by
  induction fuel generalizing r with
  | zero => exact ⟨hr, hf⟩
  | succ n ih =>
    unfold isqrtFrom
    split
    · next h => exact ih (r + 1) h (by rw [show r + 1 + n + 1 = r + (n + 1) + 1 by ring]; exact hf)
    · next h => exact ⟨hr, by omega⟩

/-- `isqrt v` is the largest number whose square is at most `v`. -/
theorem isqrt_spec (v : Nat) : isqrt v * isqrt v ≤ v ∧ v < (isqrt v + 1) * (isqrt v + 1) :=
  isqrtFrom_spec v v 0 (by omega) (by nlinarith)

theorem isqrt_mul_self (n : Nat) : isqrt (n * n) = n := by
  obtain ⟨h1, h2⟩ := isqrt_spec (n * n)
  have := Nat.mul_self_le_mul_self_iff.mp h1
  have := Nat.mul_self_lt_mul_self_iff.mp h2
  omega

theorem letterIndex_lt {c : Byte} {k : Nat} (h : letterIndex c = some k) : k < alpha := by
  unfold letterIndex at h
  split at h
  · next hc => cases h; omega
  · split at h
    · next hc => cases h; omega
    · contradiction

theorem keyIsLetters_iff {s : State} {len : Nat} :
    keyIsLetters s len = true ↔ ∀ k < len, (letterIndex (keyCharacter s k)).isSome = true := by
  simp [keyIsLetters]

/-- The dimension that passed R180's checks, and what passed. -/
theorem keyDimension_ok {s : State} {n : Nat} (h : keyDimension s = .ok n) :
    n * n = s.ops.keyLen.toNat ∧ 1 ≤ n ∧ n ≤ s.cfg.nmax ∧ 6 ≤ s.cfg.w
      ∧ ∀ k < n * n, (letterIndex (keyCharacter s k)).isSome = true := by
  unfold keyDimension at h
  simp only at h
  split at h <;> try contradiction
  split at h <;> try contradiction
  split at h <;> try contradiction
  next h1 h2 h3 =>
    cases h
    have hn : isqrt s.ops.keyLen.toNat * isqrt s.ops.keyLen.toNat = s.ops.keyLen.toNat := by omega
    refine ⟨hn, ?_, by omega, by omega, ?_⟩
    · by_contra hc
      have : isqrt s.ops.keyLen.toNat = 0 := by omega
      rw [this] at hn; omega
    · rw [hn]; exact keyIsLetters_iff.mp h3

theorem keyEntry_range (s : State) (n i j : Nat) : 0 ≤ keyEntry s n i j ∧ keyEntry s n i j < 26 := by
  unfold keyEntry
  cases h : letterIndex (keyCharacter s (i * n + j)) with
  | none => simp
  | some k => have := letterIndex_lt h; simp only [alpha] at this; simp; omega

end Sys2Proof.Machine
end

