-- ==== Sys2Proof/Laws/Determinant.lean ====
section
/-! SUPPORT. The determinant and adjugate of R172 and R175 are the library's. -/

namespace Sys2Proof.Machine

/-- The leading n x n square of `S` as a library matrix. -/
def squareOf (n : Nat) (S : Nat → Nat → Int) : Matrix (Fin n) (Fin n) Int := Matrix.of fun i j => S i j

@[simp] theorem squareOf_apply (n : Nat) (S : Nat → Nat → Int) (i j : Fin n) : squareOf n S i j = S i j := rfl

theorem altSign_eq (k : Nat) : altSign k = (-1) ^ k := by
  unfold altSign
  split
  · next h => rw [Even.neg_one_pow (Nat.even_iff.mpr h)]
  · next h => rw [Odd.neg_one_pow (Nat.odd_iff.mpr (by omega))]

/-- Deleting row i and column j is the library's submatrix (R12). -/
theorem squareOf_minor (n : Nat) (S : Nat → Nat → Int) (i j : Fin (n + 1)) :
    squareOf n (minor S i j) = (squareOf (n + 1) S).submatrix i.succAbove j.succAbove := by
  have key : ∀ (k : Fin (n + 1)) (p : Fin n), (if (p : Nat) < k then (p : Nat) else p + 1) = (k.succAbove p : Fin (n + 1)) := by
    intro k p
    by_cases h : (p : Nat) < k
    · rw [if_pos h, Fin.succAbove_of_castSucc_lt _ _ (by simpa [Fin.lt_def] using h)]; simp
    · rw [if_neg h, Fin.succAbove_of_le_castSucc _ _ (by simpa [Fin.le_def] using Nat.le_of_not_lt h)]; simp
  ext p q
  simp only [squareOf_apply, minor, Matrix.submatrix_apply, key]

/-- The cofactor expansion of R172 is the determinant. -/
theorem det_eq (n : Nat) (S : Nat → Nat → Int) : det n S = (squareOf n S).det := by
  induction n generalizing S with
  | zero => simp [det]
  | succ n ih =>
    rw [Matrix.det_succ_row_zero, Finset.sum_fin_eq_sum_range]
    simp only [det]
    rw [← List.sum_toFinset _ List.nodup_range]
    have hr : (List.range (n + 1)).toFinset = Finset.range (n + 1) := by ext; simp
    rw [hr]
    refine Finset.sum_congr rfl fun j hj => ?_
    have hj' : j < n + 1 := Finset.mem_range.mp hj
    have hm := squareOf_minor n S 0 ⟨j, hj'⟩
    simp only [Fin.val_zero] at hm
    rw [dif_pos hj', ih, altSign_eq, hm]
    rfl

/-- The adjugate of R175 is the library's. -/
theorem adj_eq (n : Nat) (S : Nat → Nat → Int) (i j : Fin n) : adj n S i j = (squareOf n S).adjugate i j := by
  cases n with
  | zero => exact i.elim0
  | succ n =>
    rw [Matrix.adjugate_fin_succ_eq_det_submatrix]
    simp only [adj, Nat.add_sub_cancel]
    rw [det_eq, altSign_eq, squareOf_minor, Nat.add_comm]

/-- `S * adj(S) = det(S) * I` (R177, K5), entry by entry. -/
theorem mul_adj (n : Nat) (S : Nat → Nat → Int) (i j : Fin n) :
    ∑ k : Fin n, S i k * adj n S k j = if i = j then det n S else 0 := by
  have h := congrFun (congrFun (Matrix.mul_adjugate (squareOf n S)) i) j
  simp only [Matrix.mul_apply, Matrix.smul_apply, Matrix.one_apply, ← adj_eq, ← det_eq, squareOf_apply, smul_eq_mul] at h
  rw [h]; split <;> simp

/-- `adj(S) * S = det(S) * I` (R177, K5), entry by entry. -/
theorem adj_mul (n : Nat) (S : Nat → Nat → Int) (i j : Fin n) :
    ∑ k : Fin n, adj n S i k * S k j = if i = j then det n S else 0 := by
  have h := congrFun (congrFun (Matrix.adjugate_mul (squareOf n S)) i) j
  simp only [Matrix.mul_apply, Matrix.smul_apply, Matrix.one_apply, ← adj_eq, ← det_eq, squareOf_apply, smul_eq_mul] at h
  rw [h]; split <;> simp

end Sys2Proof.Machine
end

