-- ==== Sys2Proof/Laws/Port.lean ====
section
/-! SUPPORT. All that a host transaction can do (R44 to R47, R203, R204), and the register map's own facts (R23). -/

namespace Sys2Proof.Machine

open Sys2Proof.Config

/-! ## The register map -/

theorem scalarAt_wellFormed {p : Params} {n : Nat} {r : Reg} (h : scalarAt n = some r) : r.wellFormed p = true := by
  have key : ∀ (c : Prop) [Decidable c] (r' : Reg) (o : Option Reg), r'.wellFormed p = true →
      (o = some r → r.wellFormed p = true) → (if c then some r' else o) = some r → r.wellFormed p = true := by
    intro c _ r' o h1 h2 h3
    by_cases hc : c
    · rw [if_pos hc] at h3; exact Option.some.inj h3 ▸ h1
    · rw [if_neg hc] at h3; exact h2 h3
  revert h
  unfold scalarAt
  iterate 13 refine key _ _ _ rfl ?_
  intro h; contradiction

/-- Every index that names a register names one that the implementation has. -/
theorem regAt_wellFormed {p : Params} {ix : Index} {r : Reg} (h : regAt p ix = some r) : r.wellFormed p = true := by
  unfold regAt at h
  generalize ix.toNat = n at h
  simp only at h
  by_cases h1 : n < 0x100
  · rw [if_pos h1] at h; exact scalarAt_wellFormed h
  rw [if_neg h1] at h
  by_cases h2 : n < 0x200
  · rw [if_pos h2] at h
    split at h
    · next hc => rw [← Option.some.inj h]; exact decide_eq_true hc
    · cases h
  rw [if_neg h2] at h
  by_cases h3 : n < 0x300
  · rw [if_pos h3] at h
    split at h
    · next hc => rw [← Option.some.inj h]; simp only [Reg.wellFormed, Bool.and_eq_true, decide_eq_true_eq]; exact hc
    · cases h
  rw [if_neg h3] at h
  by_cases h4 : n < 0x400
  · rw [if_pos h4] at h
    split at h
    · next hc => rw [← Option.some.inj h]; simp only [Reg.wellFormed, Bool.and_eq_true, decide_eq_true_eq]; exact hc
    · cases h
  rw [if_neg h4] at h
  split at h
  · next hc =>
    split at h
    · rw [← Option.some.inj h]; exact decide_eq_true hc
    · cases h
  · cases h

/-- The only register with the command register's access is `CMD`. -/
theorem regAccess_rc {r : Reg} (h : regAccess r = .rc) : r = .cmd := by
  cases r <;> first | rfl | (simp [regAccess] at h)

/-! ## Transactions -/

/-- All that a write can do. -/
theorem hostWrite_cases (ix : Index) (d : PortWord) (s : State) :
    (hostWrite ix d s = s)
      ∨ (s.status.busy = true ∧ hostWrite ix d s = reject s)
      ∨ (s.status.busy = false ∧ regAt s.cfg ix = some .cmd ∧ hostWrite ix d s = accept d s)
      ∨ (s.status.busy = false ∧ ∃ r, regAt s.cfg ix = some r ∧ regAccess r = .rw ∧ hostWrite ix d s = storeOperand r d s) := by
  unfold hostWrite
  cases hr : regAt s.cfg ix with
  | none => exact .inl rfl
  | some r =>
    cases ha : regAccess r with
    | ro => simp [ha]
    | rc =>
      obtain rfl := regAccess_rc ha
      cases hb : s.status.busy with
      | true => simp [ha]
      | false => simp [ha]
    | rw =>
      cases hb : s.status.busy with
      | true => simp [ha]
      | false => right; right; right; exact ⟨rfl, r, rfl, ha, by simp [ha]⟩

/-- All that a read can do: log one word, drawn or read. -/
theorem hostRead_cases (ix : Index) (s : State) :
    (regAt s.cfg ix = none ∧ hostRead ix s = logRead ix 0#64 s)
      ∨ (∃ r, regAt s.cfg ix = some r ∧ (s.status.busy = false ∨ readableWhileBusy r = true)
          ∧ hostRead ix s = logRead ix (readReg s r) s)
      ∨ (∃ r, regAt s.cfg ix = some r ∧ s.status.busy = true ∧ readableWhileBusy r = false ∧ hostRead ix s = drawRead ix s) := by
  unfold hostRead
  cases hr : regAt s.cfg ix with
  | none => exact .inl ⟨rfl, rfl⟩
  | some r =>
    cases hb : s.status.busy <;> cases hv : readableWhileBusy r
    · exact .inr (.inl ⟨r, rfl, .inl rfl, by simp⟩)
    · exact .inr (.inl ⟨r, rfl, .inl rfl, by simp⟩)
    · exact .inr (.inr ⟨r, rfl, rfl, hv, by simp [hv]⟩)
    · exact .inr (.inl ⟨r, rfl, .inr hv, by simp [hv]⟩)

/-- A read changes the host side alone (R47, R76). -/
theorem hostRead_frame (ix : Index) (s : State) :
    (hostRead ix s).cfg = s.cfg ∧ (hostRead ix s).cmd = s.cmd ∧ (hostRead ix s).status = s.status
      ∧ (hostRead ix s).ops = s.ops ∧ (hostRead ix s).res = s.res := by
  rcases hostRead_cases ix s with ⟨_, h⟩ | ⟨r, _, _, h⟩ | ⟨r, _, _, _, h⟩ <;> rw [h] <;> exact ⟨rfl, rfl, rfl, rfl, rfl⟩

theorem hostWrite_cfg (ix : Index) (d : PortWord) (s : State) : (hostWrite ix d s).cfg = s.cfg := by
  rcases hostWrite_cases ix d s with h | ⟨_, h⟩ | ⟨_, _, h⟩ | ⟨_, r, _, _, h⟩ <;> rw [h] <;> rfl

/-- A write never touches a result register (R45). -/
theorem hostWrite_res (ix : Index) (d : PortWord) (s : State) : (hostWrite ix d s).res = s.res := by
  rcases hostWrite_cases ix d s with h | ⟨_, h⟩ | ⟨_, _, h⟩ | ⟨_, r, _, _, h⟩ <;> rw [h] <;> rfl

/-- All that a step of the host can do to the hardware: what one write does, or nothing. -/
theorem hostStep_cases (op : HostOp) (s : State) :
    (∃ ix d, op = .wr ix d ∧ hostStep op s = hostWrite ix d (popOp s))
      ∨ ((hostStep op s).cfg = s.cfg ∧ (hostStep op s).cmd = s.cmd ∧ (hostStep op s).status = s.status
          ∧ (hostStep op s).ops = s.ops ∧ (hostStep op s).res = s.res) := by
  cases op with
  | wr ix d => exact .inl ⟨ix, d, rfl, rfl⟩
  | rd ix => exact .inr (hostRead_frame ix (popOp s))
  | wait =>
    right
    simp only [hostStep]
    by_cases h : (readReg s .status).getLsbD 0 = true
    · rw [if_pos h]; exact hostRead_frame _ s
    · rw [if_neg h]; exact hostRead_frame _ (popOp s)

/-- Bit 0 of the word `STATUS` reads is `BUSY` (R26, R101). -/
theorem readReg_status_bit0 (s : State) : (readReg s .status).getLsbD 0 = s.status.busy := by
  show (s.status.word.setWidth 64).getLsbD 0 = s.status.busy
  generalize s.status = st
  obtain ⟨busy, done, err, rej, code⟩ := st
  cases busy <;> cases done <;> cases err <;> cases rej <;> cases code <;> rfl

end Sys2Proof.Machine
end

