-- ==== Sys2Proof/Laws/Step.lean ====
section
/-! SUPPORT. All that a command and a step can do. -/

namespace Sys2Proof.Machine

/-- Every command ends by `conclude`, and the writes of one that succeeds leave `CFG`, `CMD`, `STATUS` and the host side alone. -/
theorem exec_conclude (i : Instr) (s : State) :
    ∃ r, exec i s = conclude s r
      ∧ ∀ s', r = .ok s' → s'.cfg = s.cfg ∧ s'.cmd = s.cmd ∧ s'.status = s.status ∧ s'.env = s.env := by
  cases i with
  | extgcd =>
    refine ⟨.ok (putEuclid (euclid s.ops.a s.ops.b) s), rfl, fun s' h => ?_⟩
    cases h; exact ⟨rfl, rfl, rfl, rfl⟩
  | modinv =>
    refine ⟨_, rfl, fun s' h => ?_⟩
    split at h <;> try contradiction
    split at h <;> try contradiction
    cases h; exact ⟨rfl, rfl, rfl, rfl⟩
  | gfadd | gfsub | gfmul | detmod =>
    refine ⟨_, rfl, fun s' h => ?_⟩
    split at h <;> try contradiction
    cases h; exact ⟨rfl, rfl, rfl, rfl⟩
  | gfinv | gfdiv =>
    refine ⟨_, rfl, fun s' h => ?_⟩
    split at h <;> try contradiction
    split at h <;> try contradiction
    cases h; exact ⟨rfl, rfl, rfl, rfl⟩
  | matinv =>
    refine ⟨_, rfl, fun s' h => ?_⟩
    split at h <;> try contradiction
    dsimp only at h
    split at h <;> try contradiction
    cases h; exact ⟨rfl, rfl, rfl, rfl⟩
  | matkey =>
    refine ⟨_, rfl, fun s' h => ?_⟩
    split at h <;> try contradiction
    cases h; exact ⟨rfl, rfl, rfl, rfl⟩

/-- All that a command's completion can leave: `CFG`, `CMD` and the host side as they were, and `STATUS` completed or failed; a failed
one changed nothing else. -/
theorem exec_cases {i : Instr} {s t : State} (h : exec i s = .next t) :
    (t.cfg = s.cfg ∧ t.cmd = s.cmd ∧ t.env = s.env ∧ t.status = s.status.completed) ∨ ∃ c, t = raiseErr c s := by
  obtain ⟨r, hr, hk⟩ := exec_conclude i s
  rw [hr] at h
  rcases conclude_cases h with ⟨s', hs, rfl⟩ | ⟨c, _, rfl⟩
  · obtain ⟨h1, h2, h3, h4⟩ := hk s' hs
    exact .inl ⟨h1, h2, h4, by rw [complete_status, h3]⟩
  · exact .inr ⟨c, rfl⟩

theorem exec_next (i : Instr) (s : State) : ∃ t, exec i s = .next t := by
  obtain ⟨r, hr, _⟩ := exec_conclude i s
  rw [hr]; exact conclude_next s r

theorem nextMove_completion {s : State} (h : nextMove s = .completion) : s.status.busy = true := by
  unfold nextMove engineMove hostMove at h
  cases hb : s.status.busy with
  | true => rfl
  | false =>
    exfalso
    simp only [hb] at h
    split at h <;> try contradiction
    all_goals (revert h; simp; try (split <;> simp))

/-- All that a step can do. -/
theorem step_cases {s t : State} (h : step s = .next t) :
    (nextMove s = .completion ∧ s.status.busy = true
        ∧ ((∃ i, decode s.cmd = .ok i ∧ exec i (popTurn s) = .next t)
            ∨ (∃ e, decode s.cmd = .error e ∧ t = illegalCommand (popTurn s))))
      ∨ (∃ op, nextMove s = .transaction op ∧ t = hostStep op (popTurn s))
      ∨ (nextMove s = .reset ∧ t = resetStep (popTurn s))
      ∨ (nextMove s = .nothing ∧ t = popTurn s) := by
  unfold step at h
  cases hm : nextMove s with
  | completion =>
    left
    rw [hm] at h
    simp only [completionStep, popTurn_cmd] at h
    refine ⟨rfl, nextMove_completion hm, ?_⟩
    cases hd : decode s.cmd with
    | ok i => rw [hd] at h; exact .inl ⟨i, rfl, h⟩
    | error e =>
      rw [hd] at h
      simp only [Host.Outcome.next.injEq] at h
      exact .inr ⟨e, rfl, h.symm⟩
  | transaction op =>
    rw [hm] at h
    simp only [Host.Outcome.next.injEq] at h
    exact .inr (.inl ⟨op, rfl, h.symm⟩)
  | reset =>
    rw [hm] at h
    simp only [Host.Outcome.next.injEq] at h
    exact .inr (.inr (.inl ⟨rfl, h.symm⟩))
  | nothing =>
    rw [hm] at h
    simp only [Host.Outcome.next.injEq] at h
    exact .inr (.inr (.inr ⟨rfl, h.symm⟩))

/-- An execution from a state with invariant `P` keeps it, where every step does. -/
theorem run_invariant {P : State → Prop} (hstep : ∀ s t, P s → step s = .next t → P t) (k : Nat) {s t : State} (h : P s)
    (hrun : Host.Core.run Sys2Proof.core k s = .next t) : P t := by
  induction k generalizing s with
  | zero =>
    simp only [Host.Core.run] at hrun
    cases hrun; exact h
  | succ k ih =>
    simp only [Host.Core.run] at hrun
    cases hs : step s with
    | next u =>
      have hs' : Sys2Proof.core.step s = .next u := hs
      rw [hs'] at hrun
      exact ih (hstep s u h hs) hrun
    | fault r => exact nomatch r
    | refused r =>
      have hs' : Sys2Proof.core.step s = .refused r := hs
      rw [hs'] at hrun
      contradiction

end Sys2Proof.Machine
end

