-- ==== Sys2Proof/Certificates/Slice0/Obligations.lean ====
section
/-! DEFINITION. The statements for the provers. -/

namespace Sys2Proof.Machine

open Sys2Proof.Config

/-! ## What the statements are written with -/

/-- `STATUS` after a successful completion (R206). -/
def statusDone (st : Status) : Status := { busy := false, done := true, err := false, rej := st.rej, errcode := .none }

/-- `STATUS` after an error completion with `code` (R207). -/
def statusErr (st : Status) (code : ErrCode) : Status := { busy := false, done := true, err := true, rej := st.rej, errcode := code }

/-- Command `i` ends on `s` with an error completion with `code` that changes `STATUS` alone (R202, R207). -/
def EndsInError (i : Instr) (s : State) (code : ErrCode) : Prop := exec i s = .next { s with status := statusErr s.status code }

/-- Command `i` completes on `s` and writes `v` to `RES_V`, and nothing else but `STATUS` (R94, R206). -/
def WritesV (i : Instr) (s : State) (v : Int) : Prop :=
  exec i s = .next { s with res := { s.res with v := v }, status := statusDone s.status }

/-- Command `i` completes on `s` with the field element `r` in `RES_V`. The value is `r` wherever `r` fits the register; where it does
not (possible only for W <= 8) the model leaves it free within R40's range (log entry 6). -/
def WritesField (i : Instr) (s : State) (r : Nat) : Prop :=
  ∃ v : Int, WritesV i s v ∧ 0 ≤ v ∧ v < 2 ^ (s.cfg.w - 1) ∧ ((r : Int) < 2 ^ (s.cfg.w - 1) → v = r)

/-- A field element's range (R140). -/
def InField (v : Int) : Prop := 0 ≤ v ∧ v ≤ 255

/-- The polynomial over GF(2) whose coefficients are the bits of `v`, bit i for x^i (R140). -/
noncomputable def polyOf (v : Nat) : Polynomial (ZMod 2) :=
  ∑ i ∈ Finset.range 16, if v.testBit i then Polynomial.X ^ i else 0

/-- The reduction polynomial m(x) (R10, R140). -/
noncomputable def reductionPoly : Polynomial (ZMod 2) :=
  Polynomial.X ^ 8 + Polynomial.X ^ 4 + Polynomial.X ^ 3 + Polynomial.X + 1

/-- The remainders of the trace a run of `EXTGCD` left in `t`, from the operands on: `a`, `b`, then the rows' (R111). -/
def traceR (s t : State) : Nat → Int
  | 0 => s.ops.a
  | 1 => s.ops.b
  | k + 2 => (t.res.trace.getD k TraceRow.zero).rem

/-- The coefficients of `a` in the same order, from the start values 1 and 0 (R111). -/
def traceX (t : State) : Nat → Int
  | 0 => 1
  | 1 => 0
  | k + 2 => (t.res.trace.getD k TraceRow.zero).x

/-- The coefficients of `b` in the same order, from the start values 0 and 1 (R111). -/
def traceY (t : State) : Nat → Int
  | 0 => 0
  | 1 => 1
  | k + 2 => (t.res.trace.getD k TraceRow.zero).y

/-- The matrix operand passes R174's checks with dimension `n`. -/
def MatrixAccepted (s : State) (n : Nat) : Prop :=
  s.ops.n.toNat = n ∧ 1 ≤ n ∧ n ≤ s.cfg.nmax ∧ 1 ≤ s.ops.m
    ∧ ∀ i < n, ∀ j < n, 0 ≤ gridEntry s.ops.matIn i j ∧ gridEntry s.ops.matIn i j < s.ops.m

/-- The matrix operand as a library matrix of dimension `n` (R170). -/
def inputMatrix (s : State) (n : Nat) : Matrix (Fin n) (Fin n) Int := Matrix.of fun i j => gridEntry s.ops.matIn i j

/-- The leading n x n square of `MAT_OUT` as a library matrix. -/
def outputMatrix (t : State) (n : Nat) : Matrix (Fin n) (Fin n) Int := Matrix.of fun i j => gridEntry t.res.matOut i j

/-- The two states agree on the registers that command `i` reads, as R94's table lists them. -/
def SameReads (i : Instr) (s s' : State) : Prop :=
  match i with
  | .extgcd | .gfadd | .gfsub | .gfmul | .gfdiv => s.ops.a = s'.ops.a ∧ s.ops.b = s'.ops.b
  | .modinv => s.ops.a = s'.ops.a ∧ s.ops.m = s'.ops.m
  | .gfinv => s.ops.a = s'.ops.a
  | .detmod | .matinv =>
      s.ops.n = s'.ops.n ∧ s.ops.m = s'.ops.m
        ∧ ∀ p < s.ops.n.toNat, ∀ q < s.ops.n.toNat, gridEntry s.ops.matIn p q = gridEntry s'.ops.matIn p q
  | .matkey => s.ops.keyLen = s'.ops.keyLen ∧ ∀ k < s.ops.keyLen.toNat, keyCharacter s k = keyCharacter s' k

/-- An ASCII letter (R179). -/
def IsLetter (c : Byte) : Prop := (0x41 ≤ c.toNat ∧ c.toNat ≤ 0x5A) ∨ (0x61 ≤ c.toNat ∧ c.toNat ≤ 0x7A)

/-- The index of an ASCII letter (R179). -/
def letterValue (c : Byte) : Int := if c.toNat ≤ 0x5A then (c.toNat : Int) - 0x41 else (c.toNat : Int) - 0x61

/-- The indices that R23 maps, as numbers. -/
def MappedIndex (p : Params) (ix : Nat) : Prop :=
  ix ∈ [0x000, 0x001, 0x002, 0x010, 0x011, 0x012, 0x013, 0x014, 0x040, 0x041, 0x042, 0x043, 0x044]
    ∨ (∃ k < p.nmax * p.nmax, ix = 0x100 + k)
    ∨ (∃ i < p.nmax, ∃ j < p.nmax, ix = 0x200 + 16 * i + j ∨ ix = 0x300 + 16 * i + j)
    ∨ (∃ k < p.traceDepth, ∃ f < 6, ix = 0x400 + 8 * k + f)

/-- The indices of the registers that R23 marks RO, mapped or not: `CFG`, `STATUS`, the results, `MAT_OUT`, the trace. -/
def ReadOnlyIndex (ix : Nat) : Prop := ix = 0x000 ∨ ix = 0x002 ∨ (0x040 ≤ ix ∧ ix ≤ 0x044) ∨ 0x300 ≤ ix

/-- The word a register of R23's map shows after a write of `data`: the low bits that its width keeps, extended by its sign (R72, R73). -/
def storedWord (p : Params) (r : Reg) (data : PortWord) : PortWord :=
  match r with
  | .n | .keyLen | .keyChar _ => (data.setWidth 8).setWidth 64
  | _ => (data.setWidth p.w).signExtend 64

/-- It is the engine's turn while a command is in progress: by the schedule, or past its end (log entry 3). -/
def EngineTurn (s : State) : Prop := s.status.busy = true ∧ (s.env.turns = [] ∨ ∃ ts, s.env.turns = .engine :: ts)

/-- It is the host's turn and `op` is next in its program. -/
def HostTurn (s : State) (op : HostOp) (rest : List HostOp) : Prop :=
  s.env.program = op :: rest ∧ ((s.status.busy = false ∧ s.env.turns = []) ∨ ∃ ts, s.env.turns = .host :: ts)

/-- The host side after the host's turn with `op` first in its program: past the operation and the turn. -/
def afterHost (e : Env) (rest : List HostOp) : Env := { e with program := rest, turns := e.turns.tail }

end Sys2Proof.Machine

open Sys2Proof Sys2Proof.Machine Sys2Proof.Config

/-! ## Encoding and decoding -/

/-- R91: the words written out from its table decode to the commands it names. -/
def Obligations.CommandWordsDecode : Prop :=
  decode 0x00000001#32 = .ok .extgcd ∧ decode 0x00000002#32 = .ok .modinv ∧ decode 0x00000010#32 = .ok .gfadd
    ∧ decode 0x00000011#32 = .ok .gfsub ∧ decode 0x00000012#32 = .ok .gfmul ∧ decode 0x00000013#32 = .ok .gfinv
    ∧ decode 0x00000014#32 = .ok .gfdiv ∧ decode 0x00000020#32 = .ok .detmod ∧ decode 0x00000021#32 = .ok .matinv
    ∧ decode 0x00000022#32 = .ok .matkey

/-- R90 to R93: over all 2^32 command words, a word decodes to a command exactly when it is that command's encoding; every other word
is rejected, by the reserved bits if one is set, else by the opcode. -/
def Obligations.DecodeInvertsEncode : Prop :=
  (∀ (w : CmdWord) (i : Instr), decode w = .ok i ↔ w = encode i)
    ∧ ∀ w : CmdWord, (∀ i : Instr, w ≠ encode i) →
        decode w = .error (if w.toNat < 256 then .unassignedOpcode else .reservedBits)

/-! ## The step, the lifecycle and the schedule -/

/-- R205 with R208: on the engine's turn the step is the command that `CMD` decodes to, on the state past that turn. That it is the
engine's turn past the end of the schedule is the model's choice (log entry 3). The second clause is about the model's own
`State.withFetchWord` (log entry 9, DESIGN CHOICE): in the state just after the acceptance of a command word, with an engine turn put
next, the step performs that command. -/
def Obligations.StepPerformsDecodedCommand : Prop :=
  (∀ (s : State) (i : Instr), EngineTurn s → decode s.cmd = .ok i →
      step s = exec i { s with env := { s.env with turns := s.env.turns.tail } })
    ∧ ∀ (s : State) (i : Instr),
        step (s.withFetchWord 32 (encode i).toNat)
          = exec i { s with cmd := encode i,
                            status := { busy := true, done := false, err := false, rej := false, errcode := .none } }

/-- R208: a word with a bit of [31:8] set, or whose bits [7:0] are no opcode, ends in `ILLEGAL_CMD`. -/
def Obligations.IllegalWordEndsInIllegalCmd : Prop :=
  ∀ s : State, EngineTurn s →
    (256 ≤ s.cmd.toNat ∨ s.cmd.toNat % 256 ∉ [0x01, 0x02, 0x10, 0x11, 0x12, 0x13, 0x14, 0x20, 0x21, 0x22]) →
    step s = .next { s with status := statusErr s.status .illegalCmd, env := { s.env with turns := s.env.turns.tail } }

/-- R205: the engine's step can come next exactly while a command is in progress. -/
def Obligations.EngineEnabledExactlyWhileBusy : Prop :=
  ∀ s : State, (∃ turns, nextMove { s with env := { s.env with turns := turns } } = .completion) ↔ s.status.busy = true

/-- R203: a write of `CMD` while idle is accepted, whatever the word. -/
def Obligations.CommandWriteWhileIdleIsAccepted : Prop :=
  ∀ (s : State) (data : PortWord) (rest : List HostOp), HostTurn s (.wr 0x001#12 data) rest → s.status.busy = false →
    step s = .next { s with cmd := BitVec.ofNat 32 data.toNat,
                            status := { busy := true, done := false, err := false, rej := false, errcode := .none },
                            env := afterHost s.env rest }

/-- R204: a write of `CMD` while busy is dropped and sets `REJ`. -/
def Obligations.CommandWriteWhileBusyIsRejected : Prop :=
  ∀ (s : State) (data : PortWord) (rest : List HostOp), HostTurn s (.wr 0x001#12 data) rest → s.status.busy = true →
    step s = .next { s with status := { s.status with rej := true }, env := afterHost s.env rest }

/-- R71, R78, R101: on the host's turn the step is the transaction that comes next in its program, on the state past the operation and
the turn. `WAIT` is a read of `STATUS`, which stays next while `BUSY` = 1 (log entry 4). Whose turn it is past the end of the schedule
is the model's choice (log entry 3). -/
def Obligations.HostTurnPerformsTheTransaction : Prop :=
  ∀ (s : State) (rest : List HostOp),
    (∀ ix data, HostTurn s (.wr ix data) rest → step s = .next (hostWrite ix data { s with env := afterHost s.env rest }))
      ∧ (∀ ix, HostTurn s (.rd ix) rest → step s = .next (hostRead ix { s with env := afterHost s.env rest }))
      ∧ (HostTurn s .wait rest → s.status.busy = false →
          step s = .next (hostRead 0x002#12 { s with env := afterHost s.env rest }))
      ∧ (HostTurn s .wait rest → s.status.busy = true →
          step s = .next (hostRead 0x002#12 { s with env := { s.env with turns := s.env.turns.tail } }))

/-- R206 and R94: a completion that is no error sets `STATUS` so, and leaves `CMD`, `CFG` and the host side alone. -/
def Obligations.SuccessSetsDoneAndKeepsRej : Prop :=
  ∀ (i : Instr) (s t : State), exec i s = .next t → t.status.err = false →
    t.status = { busy := false, done := true, err := false, rej := s.status.rej, errcode := .none }
      ∧ t.cmd = s.cmd ∧ t.cfg = s.cfg ∧ t.env = s.env

/-- R207 and R209: a completion with an error changes `STATUS` and nothing else, and reports a code. -/
def Obligations.ErrorChangesStatusAlone : Prop :=
  ∀ (i : Instr) (s t : State), exec i s = .next t → t.status.err = true →
    t = { s with status := { busy := false, done := true, err := true, rej := s.status.rej, errcode := t.status.errcode } }
      ∧ t.status.errcode ≠ .none

/-- R27: only an accepted `CMD` write makes the machine busy, and only a completion or reset ends it. -/
def Obligations.BusyFromAcceptanceToCompletion : Prop :=
  ∀ s t : State, step s = .next t →
    (s.status.busy = false → t.status.busy = true → ∃ data, nextMove s = .transaction (.wr 0x001#12 data))
      ∧ (s.status.busy = true → t.status.busy = false → nextMove s = .completion ∨ nextMove s = .reset)

/-- R30: `REJ` is set only by a dropped write of `CMD` or of an RW register, and cleared only by an acceptance or reset. -/
def Obligations.RejectionIsSticky : Prop :=
  ∀ s t : State, step s = .next t →
    (s.status.rej = false → t.status.rej = true →
        s.status.busy = true ∧ ∃ ix data r, nextMove s = .transaction (.wr ix data) ∧ regAt s.cfg ix = some r ∧ regAccess r ≠ .ro)
      ∧ (s.status.rej = true → t.status.rej = false →
          nextMove s = .reset ∨ (s.status.busy = false ∧ ∃ data, nextMove s = .transaction (.wr 0x001#12 data)))

/-- R78 (3) and R81: while a command is in progress, no step but its completion or a reset changes `CMD`, an operand register or a
result register, or ends it. -/
def Obligations.CommandInProgressIsUndisturbed : Prop :=
  ∀ s t : State, step s = .next t → s.status.busy = true → nextMove s ≠ .completion → nextMove s ≠ .reset →
    t.cmd = s.cmd ∧ t.ops = s.ops ∧ t.res = s.res ∧ t.cfg = s.cfg ∧ t.status.busy = true

/-- R78 (2), R219, R232: busy or idle, only a completion or a reset changes a result register; `CMD` changes besides only by an accepted
write of it, and an operand register only by a write of an RW register while idle. -/
def Obligations.ResultsChangeOnlyByCompletionOrReset : Prop :=
  ∀ s t : State, step s = .next t → nextMove s ≠ .completion → nextMove s ≠ .reset →
    t.res = s.res ∧ t.cfg = s.cfg
      ∧ (t.cmd ≠ s.cmd → s.status.busy = false ∧ ∃ data, nextMove s = .transaction (.wr 0x001#12 data))
      ∧ (t.ops ≠ s.ops → s.status.busy = false
          ∧ ∃ ix data r, nextMove s = .transaction (.wr ix data) ∧ regAt s.cfg ix = some r ∧ regAccess r = .rw)

/-- R101: with k host turns before the engine's, `WAIT` polls k times, and once the command has completed its next poll ends it, with
`BUSY` = 0 and `DONE` = 1. That
the engine goes first past the end of the schedule is the model's choice (log entry 3). -/
def Obligations.WaitEndsAfterCompletion : Prop :=
  ∀ (k : Nat) (s : State) (rest : List HostOp), s.status.busy = true → s.env.turns = List.replicate k .host →
    s.env.program = .wait :: rest →
    ∃ t, Host.Core.run Sys2Proof.core (k + 2) s = .next t ∧ t.env.program = rest ∧ t.status.busy = false ∧ t.status.done = true
      ∧ t.env.reads.length = s.env.reads.length + k + 1

/-- R94, R201, R205: what a completion writes and reports depends on the registers the command reads alone. -/
def Obligations.CompletionDependsOnItsReadsAlone : Prop :=
  ∀ (i : Instr) (s s' t t' : State), s.cfg = s'.cfg → SameReads i s s' → exec i s = .next t → exec i s' = .next t' →
    t.status.err = t'.status.err ∧ t.status.errcode = t'.status.errcode
      ∧ (t.status.err = false → i = .matkey → t.ops.n = t'.ops.n ∧ t.ops.matIn = t'.ops.matIn)
      ∧ (t.status.err = false → i = .extgcd →
          t.res.g = t'.res.g ∧ t.res.x = t'.res.x ∧ t.res.y = t'.res.y ∧ t.res.traceLen = t'.res.traceLen
            ∧ t.res.trace = t'.res.trace)
      ∧ (t.status.err = false → i ≠ .extgcd → i ≠ .matkey → t.res.v = t'.res.v)
      ∧ (t.status.err = false → i = .matinv → t.res.matOut = t'.res.matOut)

/-- R94: what no command but the named ones writes, success or error. -/
def Obligations.CommandsWriteOnlyTheirRegisters : Prop :=
  ∀ (i : Instr) (s t : State), exec i s = .next t →
    t.cfg = s.cfg ∧ t.cmd = s.cmd ∧ t.env = s.env
      ∧ t.ops.a = s.ops.a ∧ t.ops.b = s.ops.b ∧ t.ops.m = s.ops.m ∧ t.ops.keyLen = s.ops.keyLen ∧ t.ops.keyChar = s.ops.keyChar
      ∧ (i ≠ .matkey → t.ops.n = s.ops.n ∧ t.ops.matIn = s.ops.matIn)
      ∧ (i ≠ .extgcd → t.res.g = s.res.g ∧ t.res.x = s.res.x ∧ t.res.y = s.res.y ∧ t.res.traceLen = s.res.traceLen
          ∧ t.res.trace = s.res.trace)
      ∧ (i = .extgcd ∨ i = .matkey → t.res.v = s.res.v)
      ∧ (i ≠ .matinv → t.res.matOut = s.res.matOut)

/-- R207, R212: every step of every state answers a next state; nothing stops the machine. That no step faults and none is refused is
the model's deduction from these rules (log entry 11, DEDUCED). -/
def Obligations.EveryStepAnswersNext : Prop := ∀ s : State, ∃ t, step s = .next t

/-- R11, R27 to R30, R40 to R43, R114, R115: every step keeps the invariant `State.wf`, so that no register ever holds a value outside
its width and `STATUS` and the trace are always as their rules say. For `RES_V` of a GF command at W <= 8 that is the model's choice
(log entry 6). -/
def Obligations.StepKeepsWellFormedness : Prop := ∀ s t : State, s.wf → step s = .next t → t.wf

/-! ## Reset -/

/-- R230: after reset every register the implementation has reads 0, but `CFG`, and no command is in progress; with the reference
parameters `CFG` reads 0x0040_0420. -/
def Obligations.ResetLeavesEveryRegisterZero : Prop :=
  (∀ (p : Params) (r : Reg), r.wellFormed p = true → r ≠ .cfg → readReg (State.resetFor p) r = 0#64)
    ∧ (∀ p : Params, (State.resetFor p).cfg = p
        ∧ (State.resetFor p).status = { busy := false, done := false, err := false, rej := false, errcode := .none })
    ∧ readReg State.reset .cfg = 0x0000000000400420#64

/-- The invariant holds after reset of every implementation with legal parameters. -/
def Obligations.ResetIsWellFormed : Prop := ∀ p : Params, p.legal → (State.resetFor p).wf

/-- R231: a reset abandons whatever is in progress and leaves exactly the state of R230; what stands outside the hardware, the host's
program and what it has read, stays (log entry 10). -/
def Obligations.ResetAbandonsTheCommand : Prop :=
  ∀ (s : State) (ts : List Turn), s.env.turns = .reset :: ts →
    step s = .next { State.resetFor s.cfg with env := { s.env with turns := ts } }

/-- R234: each command straight after reset, and command word 0. How the command comes to run, an accepted write and the engine's turn,
is log entry 9. -/
def Obligations.CommandsOnTheResetState : Prop :=
  ∀ p : Params, p.legal →
    let after (w : Nat) (t : State) : Prop := step ((State.resetFor p).withFetchWord 32 w) = .next t
    let s (w : Nat) : State := { State.resetFor p with cmd := BitVec.ofNat 32 w }
    after 0x01 { s 0x01 with res := { (s 0x01).res with x := 1 }, status := statusDone Status.idle }
      ∧ after 0x02 { s 0x02 with status := statusErr Status.idle .invalidOperand }
      ∧ after 0x10 { s 0x10 with status := statusDone Status.idle }
      ∧ after 0x11 { s 0x11 with status := statusDone Status.idle }
      ∧ after 0x12 { s 0x12 with status := statusDone Status.idle }
      ∧ after 0x13 { s 0x13 with status := statusErr Status.idle .zeroNoInverse }
      ∧ after 0x14 { s 0x14 with status := statusErr Status.idle .divByZero }
      ∧ after 0x20 { s 0x20 with status := statusErr Status.idle .invalidOperand }
      ∧ after 0x21 { s 0x21 with status := statusErr Status.idle .invalidOperand }
      ∧ after 0x22 { s 0x22 with status := statusErr Status.idle .invalidKeyLength }
      ∧ after 0x00 { s 0x00 with status := statusErr Status.idle .illegalCmd }

/-! ## The register port -/

/-- R23: the register map maps exactly its indices. -/
def Obligations.RegisterMapCoversItsIndices : Prop :=
  ∀ (p : Params) (ix : Index), p.legal → ((regAt p ix).isSome = true ↔ MappedIndex p ix.toNat)

/-- R22, R23: an index names at most one register, every register has exactly one index, and that index is the number R23 gives. -/
def Obligations.RegisterMapIsOneToOne : Prop :=
  (∀ (p : Params) (r : Reg) (ix : Index), p.legal → r.wellFormed p = true → (regAt p ix = some r ↔ ix = regIndex r))
    ∧ (regIndex .cfg = 0x000#12 ∧ regIndex .cmd = 0x001#12 ∧ regIndex .status = 0x002#12)
    ∧ (regIndex .a = 0x010#12 ∧ regIndex .b = 0x011#12 ∧ regIndex .m = 0x012#12 ∧ regIndex .n = 0x013#12
        ∧ regIndex .keyLen = 0x014#12)
    ∧ (regIndex .resG = 0x040#12 ∧ regIndex .resX = 0x041#12 ∧ regIndex .resY = 0x042#12 ∧ regIndex .resV = 0x043#12
        ∧ regIndex .traceLen = 0x044#12)
    ∧ ∀ p : Params, p.legal →
        (∀ k < p.nmax * p.nmax, (regIndex (.keyChar k)).toNat = 0x100 + k)
          ∧ (∀ i < p.nmax, ∀ j < p.nmax,
              (regIndex (.matIn i j)).toNat = 0x200 + 16 * i + j ∧ (regIndex (.matOut i j)).toNat = 0x300 + 16 * i + j)
          ∧ ∀ k < p.traceDepth,
              (regIndex (.trace k .idx)).toNat = 0x400 + 8 * k ∧ (regIndex (.trace k .qv)).toNat = 0x400 + 8 * k + 1
                ∧ (regIndex (.trace k .rem)).toNat = 0x400 + 8 * k + 2 ∧ (regIndex (.trace k .q)).toNat = 0x400 + 8 * k + 3
                ∧ (regIndex (.trace k .x)).toNat = 0x400 + 8 * k + 4 ∧ (regIndex (.trace k .y)).toNat = 0x400 + 8 * k + 5

/-- R44: an unmapped index reads 0 and ignores writes, whether or not a command is in progress. That the read is 0 also while busy is
the model's deduction from R44 beside R47 (log entry 13, DEDUCED). -/
def Obligations.UnmappedIndexReadsZeroIgnoresWrites : Prop :=
  ∀ (s : State) (ix : Index) (data : PortWord), s.cfg.legal → ¬MappedIndex s.cfg ix.toNat →
    hostWrite ix data s = s
      ∧ hostRead ix s = { s with env := { s.env with reads := { index := ix, word := 0#64 } :: s.env.reads } }

/-- R45: a write to a read-only register does nothing, whether or not a command is in progress. -/
def Obligations.ReadOnlyRegisterIgnoresWrites : Prop :=
  ∀ (s : State) (ix : Index) (data : PortWord), ReadOnlyIndex ix.toNat → hostWrite ix data s = s

/-- R46, R72: a write to an RW register while idle stores the low bits its width keeps and changes no other register; while busy it
is dropped and sets `REJ`. -/
def Obligations.OperandWriteStoresOrIsDropped : Prop :=
  ∀ (s : State) (r : Reg) (data : PortWord), s.wf → r.wellFormed s.cfg = true →
    ((∃ k, r = .keyChar k) ∨ (∃ i j, r = .matIn i j) ∨ r ∈ [.a, .b, .m, .n, .keyLen]) →
    (s.status.busy = false →
        readReg (hostWrite (regIndex r) data s) r = storedWord s.cfg r data
          ∧ (∀ r' : Reg, r'.wellFormed s.cfg = true → r' ≠ r → readReg (hostWrite (regIndex r) data s) r' = readReg s r')
          ∧ (hostWrite (regIndex r) data s).env = s.env)
      ∧ (s.status.busy = true → hostWrite (regIndex r) data s = { s with status := { s.status with rej := true } })

/-- R47: a read of a mapped register returns its value while idle, and always for `CFG`, `CMD` and `STATUS`; otherwise it returns some
word. Either way the read changes no register. -/
def Obligations.ReadReturnsValueOrFreeWord : Prop :=
  ∀ (s : State) (ix : Index) (r : Reg), regAt s.cfg ix = some r →
    (s.status.busy = false ∨ r ∈ [.cfg, .cmd, .status] →
        hostRead ix s = { s with env := { s.env with reads := { index := ix, word := readReg s r } :: s.env.reads } })
      ∧ (s.status.busy = true → r ∉ [.cfg, .cmd, .status] →
          ∃ w, hostRead ix s
            = { s with env := { s.env with reads := { index := ix, word := w } :: s.env.reads, draws := s.env.draws + 1 } })

/-- R73: a signed register of width w reads as its w bits sign-extended, an unsigned one as its bits zero-extended. -/
def Obligations.ReadWidensBySignedness : Prop :=
  ∀ s : State, s.wf →
    (∀ r v, (r, v) ∈ [(Reg.a, s.ops.a), (.b, s.ops.b), (.m, s.ops.m), (.resG, s.res.g), (.resV, s.res.v)] →
        readReg s r = (BitVec.ofInt s.cfg.w v).signExtend 64)
      ∧ (∀ r v, (r, v) ∈ [(Reg.resX, s.res.x), (.resY, s.res.y)] → readReg s r = (BitVec.ofInt (s.cfg.w + 1) v).signExtend 64)
      ∧ (∀ i < s.cfg.nmax, ∀ j < s.cfg.nmax,
          readReg s (.matIn i j) = (BitVec.ofInt s.cfg.w (gridEntry s.ops.matIn i j)).signExtend 64
            ∧ readReg s (.matOut i j) = (BitVec.ofInt s.cfg.w (gridEntry s.res.matOut i j)).signExtend 64)
      ∧ (∀ k < s.cfg.nmax * s.cfg.nmax, readReg s (.keyChar k) = BitVec.ofNat 64 (keyCharacter s k).toNat)
      ∧ (∀ k < s.cfg.traceDepth, ∀ row, s.res.trace[k]? = some row →
          readReg s (.trace k .idx) = BitVec.ofNat 64 row.idx.toNat ∧ readReg s (.trace k .qv) = BitVec.ofNat 64 row.qv.toNat
            ∧ readReg s (.trace k .rem) = (BitVec.ofInt s.cfg.w row.rem).signExtend 64
            ∧ readReg s (.trace k .q) = (BitVec.ofInt (s.cfg.w + 1) row.q).signExtend 64
            ∧ readReg s (.trace k .x) = (BitVec.ofInt (s.cfg.w + 1) row.x).signExtend 64
            ∧ readReg s (.trace k .y) = (BitVec.ofInt (s.cfg.w + 1) row.y).signExtend 64)
      ∧ readReg s .n = BitVec.ofNat 64 s.ops.n.toNat ∧ readReg s .keyLen = BitVec.ofNat 64 s.ops.keyLen.toNat
      ∧ readReg s .traceLen = BitVec.ofNat 64 s.res.traceLen.toNat ∧ readReg s .cmd = BitVec.ofNat 64 s.cmd.toNat

/-- R24: `CFG` reports the parameters in its fields, its reserved bits read 0, and no step changes it. -/
def Obligations.CfgReportsConstantParameters : Prop :=
  ∀ s : State, s.cfg.legal →
    (readReg s .cfg).toNat = s.cfg.w + 2 ^ 8 * s.cfg.nmax + 2 ^ 16 * s.cfg.traceDepth
      ∧ ∀ t, step s = .next t → t.cfg = s.cfg

/-- R26, R200: the fields of `STATUS` and the numbers of the error codes; the reserved bits read 0. -/
def Obligations.StatusReportsItsFields : Prop :=
  ∀ s : State,
    let code : Nat := match s.status.errcode with
      | .none => 0 | .notInvertible => 1 | .zeroNoInverse => 2 | .divByZero => 3 | .notInvertibleModM => 4
      | .invalidKeyLength => 5 | .illegalCmd => 8 | .invalidOperand => 9 | .unsupportedSize => 10
    (readReg s .status).toNat
      = s.status.busy.toNat + 2 * s.status.done.toNat + 4 * s.status.err.toNat + 8 * s.status.rej.toNat + 2 ^ 8 * code

/-- R99: `LDKEY` on an idle machine leaves the string in `KEY_LEN` and `KEY_CHAR`, and no other register changes. -/
def Obligations.LdkeyLoadsTheKeyString : Prop :=
  ∀ (s : State) (str : List Byte), s.wf → s.status.busy = false → (Pseudo.ldkey str).wellFormed s.cfg = true →
    let t := (expand (.ldkey str)).foldl (fun u op => hostStep op u) s
    t.ops.keyLen.toNat = str.length ∧ (∀ k (h : k < str.length), keyCharacter t k = str[k])
      ∧ (∀ k, str.length ≤ k → keyCharacter t k = keyCharacter s k)
      ∧ t.ops.a = s.ops.a ∧ t.ops.b = s.ops.b ∧ t.ops.m = s.ops.m ∧ t.ops.n = s.ops.n ∧ t.ops.matIn = s.ops.matIn
      ∧ t.res = s.res ∧ t.status = s.status ∧ t.cmd = s.cmd ∧ t.cfg = s.cfg

/-- R99, R72: `LDMAT` on an idle machine leaves the dimension in `N` and the entries in `MAT_IN`, each narrowed to its low W bits and so
itself where it fits them, and no other register changes. -/
def Obligations.LdmatLoadsTheMatrix : Prop :=
  ∀ (s : State) (n : Nat) (rows : Grid), s.wf → s.status.busy = false → (Pseudo.ldmat n rows).wellFormed s.cfg = true →
    let t := (expand (.ldmat n rows)).foldl (fun u op => hostStep op u) s
    t.ops.n.toNat = n
      ∧ (∀ i < n, ∀ j < n, gridEntry t.ops.matIn i j = (BitVec.ofInt s.cfg.w (gridEntry rows i j)).toInt
          ∧ (fitsSigned s.cfg.w (gridEntry rows i j) → gridEntry t.ops.matIn i j = gridEntry rows i j))
      ∧ (∀ i j, ¬(i < n ∧ j < n) → gridEntry t.ops.matIn i j = gridEntry s.ops.matIn i j)
      ∧ t.ops.a = s.ops.a ∧ t.ops.b = s.ops.b ∧ t.ops.m = s.ops.m ∧ t.ops.keyLen = s.ops.keyLen
      ∧ t.ops.keyChar = s.ops.keyChar ∧ t.res = s.res ∧ t.status = s.status ∧ t.cmd = s.cmd ∧ t.cfg = s.cfg

/-- R96, R98, R99, R101: the other lines of a host program. `RDMAT` reads `MAT_OUT` row by row, `RDTRACE` six registers a row, `CMD`
writes the command word, `RUN` is `CMD` and then `WAIT`. -/
def Obligations.ReadPseudosReadInOrder : Prop :=
  (∀ n i j, i < n → j < n →
      (expand (.rdmat n)).length = n * n ∧ (expand (.rdmat n))[i * n + j]? = some (.rd (regIndex (.matOut i j))))
    ∧ (∀ t k, k < t →
        (expand (.rdtrace t)).length = 6 * t
          ∧ (expand (.rdtrace t))[6 * k]? = some (.rd (regIndex (.trace k .idx)))
          ∧ (expand (.rdtrace t))[6 * k + 1]? = some (.rd (regIndex (.trace k .qv)))
          ∧ (expand (.rdtrace t))[6 * k + 2]? = some (.rd (regIndex (.trace k .rem)))
          ∧ (expand (.rdtrace t))[6 * k + 3]? = some (.rd (regIndex (.trace k .q)))
          ∧ (expand (.rdtrace t))[6 * k + 4]? = some (.rd (regIndex (.trace k .x)))
          ∧ (expand (.rdtrace t))[6 * k + 5]? = some (.rd (regIndex (.trace k .y))))
    ∧ ∀ i : Instr, expand (.cmd i) = [.wr 0x001#12 (BitVec.ofNat 64 (opcode i).toNat)] ∧ expand (.run i) = expand (.cmd i) ++ [.wait]

/-- R97: no two transactions have the same listing. -/
def Obligations.ListingTellsTransactionsApart : Prop :=
  ∀ op op' : HostOp, op ≠ .wait → op' ≠ .wait → listing op = listing op' → op = op'

/-! ## EXTGCD and MODINV -/

/-- R112, R118: `EXTGCD` always completes; it writes `RES_G`, `RES_X`, `RES_Y`, `TRACE_LEN` and the trace, and nothing else but
`STATUS`; the gcd is the exact combination of the operands, its magnitude is the greatest common divisor, and its sign is as R112
says. -/
def Obligations.ExtgcdGivesSignedGcdAndBezout : Prop :=
  ∀ s : State, ∃ t, exec .extgcd s = .next t
    ∧ t = { s with
        res := { s.res with g := t.res.g, x := t.res.x, y := t.res.y, traceLen := t.res.traceLen, trace := t.res.trace },
        status := statusDone s.status }
    ∧ t.res.g = s.ops.a * t.res.x + s.ops.b * t.res.y
    ∧ t.res.g.natAbs = Int.gcd s.ops.a s.ops.b
    ∧ (s.ops.b = 0 → t.res.g = s.ops.a ∧ t.res.x = 1 ∧ t.res.y = 0)
    ∧ (0 < s.ops.b → 0 < t.res.g) ∧ (s.ops.b < 0 → t.res.g < 0)

/-- R110, R111, R113, R118: the trace that `EXTGCD` leaves is the run of Euclid by floor division from the operands, one row per
iteration; it stops at the first zero remainder; the results are the state it stops in; the rows past it are zero. -/
def Obligations.ExtgcdTraceIsTheEuclidRun : Prop :=
  ∀ s t : State, s.cfg.legal → fitsSigned s.cfg.w s.ops.b → exec .extgcd s = .next t →
    let len := t.res.traceLen.toNat
    (∀ k < len, ∃ row, t.res.trace[k]? = some row
        ∧ row.idx.toNat = k ∧ row.qv = decide (k ≠ 0)
        ∧ traceR s t (k + 1) ≠ 0
        ∧ row.q = Int.fdiv (traceR s t k) (traceR s t (k + 1))
        ∧ row.rem = traceR s t k - row.q * traceR s t (k + 1)
        ∧ row.x = traceX t k - row.q * traceX t (k + 1)
        ∧ row.y = traceY t k - row.q * traceY t (k + 1)
        ∧ row.rem = s.ops.a * row.x + s.ops.b * row.y)
      ∧ traceR s t (len + 1) = 0
      ∧ t.res.g = traceR s t len ∧ t.res.x = traceX t len ∧ t.res.y = traceY t len
      ∧ (∀ k < s.cfg.traceDepth, len ≤ k →
          t.res.trace[k]? = some { idx := 0#8, qv := false, rem := 0, q := 0, x := 0, y := 0 })
      ∧ (0 < len → (traceX t (len + 1)).natAbs * t.res.g.natAbs = s.ops.b.natAbs
          ∧ (traceY t (len + 1)).natAbs * t.res.g.natAbs = s.ops.a.natAbs)

/-- R114: for W-bit operands no value `EXTGCD` writes is truncated, and the coefficients of every row are bounded by the operands over
the gcd. -/
def Obligations.ExtgcdValuesFitTheirRegisters : Prop :=
  ∀ s t : State, s.cfg.legal → fitsSigned s.cfg.w s.ops.a → fitsSigned s.cfg.w s.ops.b → exec .extgcd s = .next t →
    fitsSigned s.cfg.w t.res.g
      ∧ t.res.x.natAbs ≤ 2 ^ (s.cfg.w - 1) ∧ t.res.y.natAbs ≤ 2 ^ (s.cfg.w - 1)
      ∧ ∀ k < t.res.traceLen.toNat, ∃ row, t.res.trace[k]? = some row
          ∧ fitsSigned s.cfg.w row.rem
          ∧ row.q.natAbs ≤ 2 ^ (s.cfg.w - 1) ∧ row.x.natAbs ≤ 2 ^ (s.cfg.w - 1) ∧ row.y.natAbs ≤ 2 ^ (s.cfg.w - 1)
          ∧ row.x.natAbs ≤ max 1 (s.ops.b.natAbs / t.res.g.natAbs) ∧ row.y.natAbs ≤ max 1 (s.ops.a.natAbs / t.res.g.natAbs)

/-- R115: for W-bit operands the loop runs at most 2*W - 2 times, and every iteration has its row among the TRACE_DEPTH held. -/
def Obligations.ExtgcdTraceNeverOverflows : Prop :=
  ∀ s : State, s.cfg.legal → fitsSigned s.cfg.w s.ops.b →
    ∃ t, exec .extgcd s = .next t ∧ t.res.traceLen.toNat = (euclid s.ops.a s.ops.b).rows.length
      ∧ t.res.traceLen.toNat ≤ 2 * s.cfg.w - 2 ∧ t.res.traceLen.toNat ≤ s.cfg.traceDepth

/-- R116, R117, R119: `MODINV` refuses a modulus below 1, fails when the operands share a factor, and otherwise writes the inverse in
[0, M) to `RES_V` alone. -/
def Obligations.ModinvInvertsOrFails : Prop :=
  ∀ s : State,
    (s.ops.m < 1 → EndsInError .modinv s .invalidOperand)
      ∧ (1 ≤ s.ops.m → Int.gcd s.ops.a s.ops.m ≠ 1 → EndsInError .modinv s .notInvertible)
      ∧ (1 ≤ s.ops.m → Int.gcd s.ops.a s.ops.m = 1 →
          ∃ v, WritesV .modinv s v ∧ 0 ≤ v ∧ v < s.ops.m ∧ (2 ≤ s.ops.m → s.ops.a * v % s.ops.m = 1))

/-! ## GF(2^8) -/

/-- R141, R150: `GFADD` writes the bitwise exclusive or of field elements; it refuses any other operand. -/
def Obligations.GfaddXorsFieldElements : Prop :=
  ∀ s : State,
    (InField s.ops.a → InField s.ops.b → WritesField .gfadd s (s.ops.a.toNat ^^^ s.ops.b.toNat))
      ∧ (¬(InField s.ops.a ∧ InField s.ops.b) → EndsInError .gfadd s .invalidOperand)

/-- R142, R151: `GFSUB` does what `GFADD` does. -/
def Obligations.GfsubXorsFieldElements : Prop :=
  ∀ s : State,
    (InField s.ops.a → InField s.ops.b → WritesField .gfsub s (s.ops.a.toNat ^^^ s.ops.b.toNat))
      ∧ (¬(InField s.ops.a ∧ InField s.ops.b) → EndsInError .gfsub s .invalidOperand)

/-- R143, R144, R152: `GFMUL` writes the field element congruent to the product of the operands' polynomials modulo m(x); it refuses
any operand that is no field element. -/
def Obligations.GfmulIsPolynomialProduct : Prop :=
  ∀ s : State,
    (InField s.ops.a → InField s.ops.b →
        ∃ r < 256, WritesField .gfmul s r ∧ reductionPoly ∣ polyOf s.ops.a.toNat * polyOf s.ops.b.toNat - polyOf r)
      ∧ (¬(InField s.ops.a ∧ InField s.ops.b) → EndsInError .gfmul s .invalidOperand)

/-- R144: the multiplication's laws, and its worked values. -/
def Obligations.GfMultiplicationLaws : Prop :=
  (∀ a b : Byte, gfMul a b = gfMul b a ∧ reductionPoly ∣ polyOf a.toNat * polyOf b.toNat - polyOf (gfMul a b).toNat)
    ∧ (∀ a : Byte, gfMul a 0#8 = 0#8 ∧ gfMul 0#8 a = 0#8 ∧ gfMul a 1#8 = a)
    ∧ gfMul 0x57#8 0x83#8 = 0xC1#8 ∧ gfMul 0x57#8 0x13#8 = 0xFE#8 ∧ gfMul 0x80#8 0x02#8 = 0x1B#8

/-- R145: for every nonzero element the inverse's loop ends within 12 steps, with `r1` = 1; no step has a negative shift; and its
coefficients stay within 8 and 7 bits. -/
def Obligations.GfInverseLoopEnds : Prop :=
  ∀ a : Byte, a ≠ 0#8 →
    (∃ k ≤ 12, (gfLoop k (gfStart a.toNat)).r1 = 1 ∧ gfLoop 16 (gfStart a.toNat) = gfLoop k (gfStart a.toNat))
      ∧ ∀ k, deg (gfLoop k (gfStart a.toNat)).r1 ≤ deg (gfLoop k (gfStart a.toNat)).r0
          ∧ (gfLoop k (gfStart a.toNat)).s0 < 256 ∧ (gfLoop k (gfStart a.toNat)).s1 < 256
          ∧ (gfLoop k (gfStart a.toNat)).t0 < 128 ∧ (gfLoop k (gfStart a.toNat)).t1 < 128

/-- R146: the inverse's laws. -/
def Obligations.GfInverseLaws : Prop :=
  (∀ a : Byte, a ≠ 0#8 → gfMul a (gfInverse a) = 1#8 ∧ gfInverse (gfInverse a) = a ∧ gfInverse a ≠ 0#8)
    ∧ (∀ a b : Byte, gfMul a b = 1#8 → b = gfInverse a) ∧ gfInverse 1#8 = 1#8

/-- R140, R146, R153: `GFINV` writes the element whose product with `A` is 1; 0 has none, and what is no field element is refused.
`B` plays no part. -/
def Obligations.GfinvInvertsOrFails : Prop :=
  ∀ s : State,
    (1 ≤ s.ops.a → s.ops.a ≤ 255 →
        ∃ r < 256, WritesField .gfinv s r ∧ gfMul (BitVec.ofInt 8 s.ops.a) (BitVec.ofNat 8 r) = 1#8)
      ∧ (s.ops.a = 0 → EndsInError .gfinv s .zeroNoInverse)
      ∧ (¬InField s.ops.a → EndsInError .gfinv s .invalidOperand)

/-- R148, R154: `GFDIV` writes the quotient, the element whose product with `B` is `A`; a zero divisor fails whatever `A` is, and what
is no field element is refused first. -/
def Obligations.GfdivDividesOrFails : Prop :=
  ∀ s : State,
    (InField s.ops.a → InField s.ops.b → s.ops.b ≠ 0 →
        ∃ r < 256, WritesField .gfdiv s r ∧ gfMul (BitVec.ofNat 8 r) (BitVec.ofInt 8 s.ops.b) = BitVec.ofInt 8 s.ops.a)
      ∧ (InField s.ops.a → s.ops.b = 0 → EndsInError .gfdiv s .divByZero)
      ∧ (¬(InField s.ops.a ∧ InField s.ops.b) → EndsInError .gfdiv s .invalidOperand)

/-- R148: the division's laws, of `divide(a, b) = multiply(a, inverse(b))`. -/
def Obligations.GfDivisionLaws : Prop :=
  ∀ a b : Byte,
    (b ≠ 0#8 → gfMul (gfMul a b) (gfInverse b) = a ∧ gfMul 0#8 (gfInverse b) = 0#8 ∧ gfMul 1#8 (gfInverse b) = gfInverse b)
      ∧ gfMul a (gfInverse 1#8) = a

/-! ## The matrix unit -/

/-- R174: the operand checks of `DETMOD` and `MATINV`, the first that applies deciding the error. -/
def Obligations.MatrixChecksComeInOrder : Prop :=
  ∀ (s : State) (i : Instr), i = .detmod ∨ i = .matinv →
    (s.ops.n.toNat = 0 → EndsInError i s .invalidOperand)
      ∧ (s.cfg.nmax < s.ops.n.toNat → 1 ≤ s.ops.n.toNat → EndsInError i s .unsupportedSize)
      ∧ (1 ≤ s.ops.n.toNat → s.ops.n.toNat ≤ s.cfg.nmax → s.ops.m < 1 → EndsInError i s .invalidOperand)
      ∧ (1 ≤ s.ops.n.toNat → s.ops.n.toNat ≤ s.cfg.nmax → 1 ≤ s.ops.m →
          (∃ p < s.ops.n.toNat, ∃ q < s.ops.n.toNat,
            gridEntry s.ops.matIn p q < 0 ∨ s.ops.m ≤ gridEntry s.ops.matIn p q) → EndsInError i s .invalidOperand)

/-- R172, R173, R183: `DETMOD` writes the determinant reduced into [0, M) to `RES_V` alone. -/
def Obligations.DetmodWritesTheDeterminant : Prop :=
  ∀ (s : State) (n : Nat), MatrixAccepted s n → WritesV .detmod s ((inputMatrix s n).det % s.ops.m)

/-- R176: `MATINV` fails when the determinant shares a factor with the modulus, with its own code. -/
def Obligations.MatinvFailsOnSharedFactor : Prop :=
  ∀ (s : State) (n : Nat), MatrixAccepted s n → Int.gcd ((inputMatrix s n).det % s.ops.m) s.ops.m ≠ 1 →
    EndsInError .matinv s .notInvertibleModM

/-- R177, R184: otherwise `MATINV` writes the determinant to `RES_V` and an inverse of the input modulo M to `MAT_OUT`, its entries in
[0, M), with zeros outside the square, and nothing else but `STATUS`. -/
def Obligations.MatinvWritesTheInverse : Prop :=
  ∀ (s : State) (n : Nat), MatrixAccepted s n → Int.gcd ((inputMatrix s n).det % s.ops.m) s.ops.m = 1 →
    ∃ t, exec .matinv s = .next t
      ∧ t = { s with res := { s.res with v := (inputMatrix s n).det % s.ops.m, matOut := t.res.matOut },
                     status := statusDone s.status }
      ∧ t.res.matOut.length = s.cfg.nmax ∧ (∀ row ∈ t.res.matOut, row.length = s.cfg.nmax)
      ∧ (∀ i < n, ∀ j < n, 0 ≤ gridEntry t.res.matOut i j ∧ gridEntry t.res.matOut i j < s.ops.m)
      ∧ (∀ i j, ¬(i < n ∧ j < n) → gridEntry t.res.matOut i j = 0)
      ∧ ∀ i j : Fin n,
          (inputMatrix s n * outputMatrix t n) i j % s.ops.m = (1 : Matrix (Fin n) (Fin n) Int) i j % s.ops.m
            ∧ (outputMatrix t n * inputMatrix s n) i j % s.ops.m = (1 : Matrix (Fin n) (Fin n) Int) i j % s.ops.m

/-- R181: with a key matrix that `MATINV` inverts modulo 26, decrypting an encrypted block gives the block back. -/
def Obligations.HillRoundTrip : Prop :=
  ∀ (s t : State) (v : Nat → Int), s.ops.m = 26 → exec .matinv s = .next t → t.status.err = false →
    (∀ i < s.ops.n.toNat, 0 ≤ v i ∧ v i ≤ 25) →
    ∀ i < s.ops.n.toNat,
      (∑ k ∈ Finset.range s.ops.n.toNat,
          gridEntry t.res.matOut i k * ((∑ j ∈ Finset.range s.ops.n.toNat, gridEntry s.ops.matIn k j * v j) % 26)) % 26 = v i

/-- R179, R180, R185: `MATKEY` on a key of n*n letters writes n to `N` and the letters' indices, row by row, to `MAT_IN`, with zeros
outside the square, and nothing else but `STATUS`. -/
def Obligations.MatkeyLoadsTheKeyMatrix : Prop :=
  ∀ (s : State) (n : Nat), s.ops.keyLen.toNat = n * n → 1 ≤ n → n ≤ s.cfg.nmax → 6 ≤ s.cfg.w →
    (∀ k < n * n, IsLetter (keyCharacter s k)) →
    ∃ t, exec .matkey s = .next t
      ∧ t = { s with ops := { s.ops with n := t.ops.n, matIn := t.ops.matIn }, status := statusDone s.status }
      ∧ t.ops.n.toNat = n
      ∧ t.ops.matIn.length = s.cfg.nmax ∧ (∀ row ∈ t.ops.matIn, row.length = s.cfg.nmax)
      ∧ (∀ i < n, ∀ j < n, gridEntry t.ops.matIn i j = letterValue (keyCharacter s (i * n + j)))
      ∧ ∀ i j, ¬(i < n ∧ j < n) → gridEntry t.ops.matIn i j = 0

/-- R180, R182: the checks of `MATKEY`, the first that applies deciding the error. -/
def Obligations.MatkeyChecksComeInOrder : Prop :=
  ∀ s : State,
    ((s.ops.keyLen.toNat = 0 ∨ ∀ n, n * n ≠ s.ops.keyLen.toNat) → EndsInError .matkey s .invalidKeyLength)
      ∧ (∀ n, 1 ≤ n → n * n = s.ops.keyLen.toNat → (s.cfg.nmax < n ∨ s.cfg.w < 6) → EndsInError .matkey s .unsupportedSize)
      ∧ (∀ n, 1 ≤ n → n * n = s.ops.keyLen.toNat → n ≤ s.cfg.nmax → 6 ≤ s.cfg.w →
          (∃ k < n * n, ¬IsLetter (keyCharacter s k)) → EndsInError .matkey s .invalidOperand)
end

