-- ==== Sys2Proof/Laws/PerInstr.lean ====
section
/-! SUPPORT. What holds of every command as syntax, one lemma per command. -/

/-- The command word of `i`: reserved bits zero (R92), the opcode in the low byte (R90, R91), decoding back to `i`; and `i` is well formed. -/
def Sys2Proof.Laws.ReservedZero.Statement (i : Sys2Proof.Instr) : Prop :=
  Sys2Proof.rsvField (Sys2Proof.encode i) = 0#24 ∧ Sys2Proof.opField (Sys2Proof.encode i) = Sys2Proof.opcode i
    ∧ Sys2Proof.decodeTableWord 32 (Sys2Proof.encode i).toNat = some i ∧ i.wellFormed = true

namespace Sys2Proof.Laws.ReservedZero

theorem extgcd : Statement .extgcd := by unfold Statement; decide
theorem modinv : Statement .modinv := by unfold Statement; decide
theorem gfadd : Statement .gfadd := by unfold Statement; decide
theorem gfsub : Statement .gfsub := by unfold Statement; decide
theorem gfmul : Statement .gfmul := by unfold Statement; decide
theorem gfinv : Statement .gfinv := by unfold Statement; decide
theorem gfdiv : Statement .gfdiv := by unfold Statement; decide
theorem detmod : Statement .detmod := by unfold Statement; decide
theorem matinv : Statement .matinv := by unfold Statement; decide
theorem matkey : Statement .matkey := by unfold Statement; decide

end Sys2Proof.Laws.ReservedZero
end

