-- ==== Sys2Proof/Tests/Slice0.lean ====
section
/-! SUPPORT. Tests against the spec's encodings and its vectors (spec/95_test_vectors.md), and a witness for the hypotheses of every
obligation that has some. -/

namespace Sys2Proof.Tests

open Sys2Proof Sys2Proof.Machine Sys2Proof.Config

/-! ## Decoding: words written out from R90 and R91 (RSV 24 bits, then OP) -/

theorem test_decode_extgcd : decode 0b000000000000000000000000_00000001#32 = .ok .extgcd := by decide
theorem test_decode_modinv : decode 0b000000000000000000000000_00000010#32 = .ok .modinv := by decide
theorem test_decode_gfadd : decode 0b000000000000000000000000_00010000#32 = .ok .gfadd := by decide
theorem test_decode_gfsub : decode 0b000000000000000000000000_00010001#32 = .ok .gfsub := by decide
theorem test_decode_gfmul : decode 0b000000000000000000000000_00010010#32 = .ok .gfmul := by decide
theorem test_decode_gfinv : decode 0b000000000000000000000000_00010011#32 = .ok .gfinv := by decide
theorem test_decode_gfdiv : decode 0b000000000000000000000000_00010100#32 = .ok .gfdiv := by decide
theorem test_decode_detmod : decode 0b000000000000000000000000_00100000#32 = .ok .detmod := by decide
theorem test_decode_matinv : decode 0b000000000000000000000000_00100001#32 = .ok .matinv := by decide
theorem test_decode_matkey : decode 0b000000000000000000000000_00100010#32 = .ok .matkey := by decide
/-- V131 and the top reserved bit (R92). -/
theorem test_decode_reserved : decode 0x101#32 = .error .reservedBits ∧ decode 0x80000001#32 = .error .reservedBits := by decide
/-- The edges of R93's unassigned ranges. -/
theorem test_decode_unassigned :
    ([0x00, 0x03, 0x0F, 0x15, 0x1F, 0x23, 0xFF].all fun op => decode (BitVec.ofNat 32 op) == .error .unassignedOpcode) = true := by decide
theorem test_table_word : decodeTableWord 32 0x22 = some .matkey ∧ decodeTableWord 32 0x122 = none := by decide

/-! ## WellFormed: an ill-formed term for each check -/

def ref : Params := Params.reference

theorem test_ill_reg :
    ([Reg.keyChar 16, .matIn 4 0, .matIn 0 4, .matOut 4 0, .matOut 0 4, .trace 64 .q].any (Reg.wellFormed ref)) = false := by decide
theorem test_ill_wr_value : (Pseudo.wr .a (2 ^ 64)).wellFormed ref = false ∧ (Pseudo.wrIndex 0x010#12 (-2 ^ 63 - 1)).wellFormed ref = false := by
  decide
theorem test_ill_wr_reg : (Pseudo.wr (.matIn 4 0) 1).wellFormed ref = false ∧ (Pseudo.rd (.trace 64 .idx)).wellFormed ref = false := by decide
theorem test_ill_ldkey : (Pseudo.ldkey (List.replicate 17 0x41#8)).wellFormed ref = false := by decide
theorem test_ill_ldmat :
    ([Pseudo.ldmat 5 (zeroGrid 5), .ldmat 2 [[1, 2]], .ldmat 2 [[1, 2], [3]], .ldmat 1 [[2 ^ 64]]].any (Pseudo.wellFormed ref)) = false := by
  decide
theorem test_ill_rdmat : (Pseudo.rdmat 5).wellFormed ref = false := by decide
theorem test_ill_rdtrace : (Pseudo.rdtrace 65).wellFormed ref = false := by decide
theorem test_well_formed : (Pseudo.ldmat 4 (zeroGrid 4)).wellFormed ref = true ∧ (Pseudo.rdtrace 64).wellFormed ref = true
    ∧ (Pseudo.wr (.keyChar 15) 0x41).wellFormed ref = true ∧ Instr.matkey.wellFormed = true := by decide

/-! ## Commands -/

/-- A machine just after accepting a command, with reference parameters and operands `a`, `b`, `m`, `n` and the n x n matrix. -/
def busy (a b m : Int) (n : Nat) (mat : Grid) : State :=
  { State.reset with
    status := Status.accepted
    ops := { Operands.reset ref with a := a, b := b, m := m, n := BitVec.ofNat 8 n, matIn := gridOf 4 n (gridEntry mat) } }

/-- The same with a key string. -/
def withKey (chars : List Nat) : State :=
  { State.reset with
    status := Status.accepted
    ops := { Operands.reset ref with
      keyLen := BitVec.ofNat 8 chars.length
      keyChar := (List.range 16).map fun k => BitVec.ofNat 8 (chars.getD k 0) } }

/-- The key "Z" on an implementation with W = `w`. -/
def narrowKey (w : Nat) : State := { withKey [0x5A] with cfg := { w := w, nmax := 4, traceDepth := 64 } }

/-- What `f` sees in the next state. -/
def next? {α : Type} (o : Host.Outcome State Fault Refusal) (f : State → α) : Option α :=
  match o with
  | .next t => some (f t)
  | .fault _ => none
  | .refused _ => none

/-- The error a command reports; `none` for success. -/
def code (i : Instr) (s : State) : Option ErrCode := next? (exec i s) (fun t => t.status.errcode)

/-- The value a command leaves in `RES_V`, with `STATUS.ERR`. -/
def value (i : Instr) (s : State) : Option (Int × Bool) := next? (exec i s) (fun t => (t.res.v, t.status.err))

/-- V5: results and a row of the trace. -/
theorem test_extgcd_v5 :
    next? (exec .extgcd (busy 240 46 0 0 [])) (fun t => (t.res.g, t.res.x, t.res.y, t.res.traceLen.toNat, t.res.trace[3]?))
      = some (2, -9, 47, 5, some { idx := 3#8, qv := true, rem := 2, q := 1, x := -9, y := 47 }) := by decide +kernel
/-- V11: a negative divisor. -/
theorem test_extgcd_v11 :
    next? (exec .extgcd (busy 12 (-18) 0 0 [])) (fun t => (t.res.g, t.res.x, t.res.y, t.res.traceLen.toNat, t.res.trace[0]?))
      = some (-6, 1, 1, 2, some { idx := 0#8, qv := false, rem := -6, q := -1, x := 1, y := 1 }) := by decide +kernel
/-- V30. -/
theorem test_modinv_v30 : value .modinv (busy (-3) 0 26 0 []) = some (17, false) := by decide +kernel
/-- V36 and V38. -/
theorem test_modinv_errors : code .modinv (busy 4 0 26 0 []) = some .notInvertible ∧ code .modinv (busy 7 0 0 0 []) = some .invalidOperand := by
  decide +kernel
/-- V42. -/
theorem test_gfadd_v42 : value .gfadd (busy 0x57 0x83 0 0 []) = some (0xD4, false) := by decide +kernel
/-- V47. -/
theorem test_gfadd_v47 : code .gfadd (busy 0x100 1 0 0 []) = some .invalidOperand := by decide +kernel
/-- V45. -/
theorem test_gfsub_v45 : value .gfsub (busy 0xD4 0x83 0 0 []) = some (0x57, false) := by decide +kernel
/-- V48. -/
theorem test_gfsub_v48 : code .gfsub (busy 5 (-1) 0 0 []) = some .invalidOperand := by decide +kernel
/-- V49, with its product before reduction. -/
theorem test_gfmul_v49 : gfProduct 0x57#8 0x83#8 = 0x2B79#16 ∧ value .gfmul (busy 0x57 0x83 0 0 []) = some (0xC1, false) := by decide +kernel
/-- V58. -/
theorem test_gfmul_v58 : value .gfmul (busy 0x80 0x80 0 0 []) = some (0x9A, false) := by decide +kernel
/-- V60, with its state after step 4 of the loop. -/
theorem test_gfinv_v60 :
    gfLoop 4 (gfStart 0x53) = { r0 := 0x04, r1 := 0x03, s0 := 0x05, s1 := 0x45, t0 := 0x01, t1 := 0x14 }
      ∧ value .gfinv (busy 0x53 0x1000 0 0 []) = some (0xCA, false) := by decide +kernel
/-- V69 and V71. -/
theorem test_gfinv_errors : code .gfinv (busy 0 5 0 0 []) = some .zeroNoInverse ∧ code .gfinv (busy (-1) 5 0 0 []) = some .invalidOperand := by
  decide +kernel
/-- V72. -/
theorem test_gfdiv_v72 : value .gfdiv (busy 0xC1 0x83 0 0 []) = some (0x57, false) := by decide +kernel
/-- V79 and V80: the zero divisor, and the check that comes before it. -/
theorem test_gfdiv_errors : code .gfdiv (busy 0 0 0 0 []) = some .divByZero ∧ code .gfdiv (busy 0x100 0 0 0 []) = some .invalidOperand := by
  decide +kernel
/-- V84. -/
theorem test_detmod_v84 : value .detmod (busy 0 0 26 3 [[6, 24, 1], [13, 16, 10], [20, 17, 15]]) = some (25, false) := by decide +kernel
/-- V88, V90 and V91. -/
theorem test_detmod_errors :
    code .detmod (busy 0 0 1 2 [[3, 3], [2, 5]]) = some .invalidOperand ∧ code .detmod (busy 0 0 26 0 []) = some .invalidOperand
      ∧ code .detmod (busy 0 0 26 5 []) = some .unsupportedSize := by decide +kernel
/-- V97: a matrix whose inverse is not symmetric, with zeros outside the square. -/
theorem test_matinv_v97 :
    next? (exec .matinv (busy 0 0 26 3 [[6, 24, 1], [13, 16, 10], [20, 17, 15]])) (fun t => (t.res.v, t.res.matOut))
      = some (25, [[8, 5, 10, 0], [21, 8, 21, 0], [21, 12, 8, 0], [0, 0, 0, 0]]) := by decide +kernel
/-- V95. -/
theorem test_matinv_v95 : code .matinv (busy 0 0 26 2 [[0, 1], [2, 3]]) = some .notInvertibleModM := by decide +kernel
/-- V119: both cases of letters. -/
theorem test_matkey_v119 :
    next? (exec .matkey (withKey [0x41, 0x62, 0x43, 0x64])) (fun t => (t.ops.n, t.ops.matIn))
      = some (2#8, [[0, 1, 0, 0], [2, 3, 0, 0], [0, 0, 0, 0], [0, 0, 0, 0]]) := by decide +kernel
/-- V108, V113 and V117. -/
theorem test_matkey_errors :
    code .matkey (withKey [0x41, 0x42, 0x43]) = some .invalidKeyLength ∧ code .matkey (withKey [0x41, 0x42, 0x31, 0x44]) = some .invalidOperand
      ∧ code .matkey (withKey (List.replicate 25 0x41)) = some .unsupportedSize := by decide +kernel

/-! ## Port, lifecycle, reset -/

/-- V121. -/
theorem test_cfg_word : readReg State.reset .cfg = 0x0000000000400420#64 := by decide
/-- V122 and V123: narrowing and sign extension. -/
theorem test_write_narrows :
    (hostWrite 0x010#12 0x0000000100000005#64 State.reset).ops.a = 5
      ∧ readReg (hostWrite 0x010#12 0x00000000FFFFFFFF#64 State.reset) .a = 0xFFFFFFFFFFFFFFFF#64 := by decide +kernel
/-- V125 and V126: unsigned registers. -/
theorem test_write_unsigned :
    readReg (hostWrite 0x100#12 0x141#64 State.reset) (.keyChar 0) = 0x41#64
      ∧ (hostWrite 0x013#12 0x1FF#64 State.reset).ops.n = 255#8 := by decide +kernel
/-- V128: trace quotient 2^31 needs XW bits. -/
theorem test_wide_trace :
    next? (exec .extgcd (busy (-2 ^ 31) (-1) 0 0 [])) (fun t => (readReg t (.trace 0 .q), readReg t (.trace 0 .y), readReg t .resG))
      = some (0x0000000080000000#64, 0xFFFFFFFF80000000#64, 0xFFFFFFFFFFFFFFFF#64) := by decide +kernel
/-- V131: the illegal word stays in `CMD`. -/
theorem test_illegal_word :
    next? (step (State.reset.withFetchWord 32 0x101)) (fun t => (t.status.word, t.cmd)) = some (0x0806#32, 0x101#32) := by decide +kernel
/-- V132: writes while busy are dropped and recorded, and the error keeps the record. -/
theorem test_dropped_writes :
    let s := hostWrite 0x011#12 3#64 (hostWrite 0x001#12 0x10#64 (hostWrite 0x001#12 0x10#64 (busy (-2 ^ 31) (-1) 0 0 [])))
    s.ops.b = -1 ∧ s.status.word = 0x0009#32 ∧ next? (exec .gfadd s) (fun t => t.status.word) = some 0x090E#32 := by decide +kernel
/-- V134 and V135: unmapped indices. -/
theorem test_unmapped :
    ([0x045, 0x0FF, 0xFFF, 0x406].all fun ix => (hostRead (BitVec.ofNat 12 ix) (busy 1 1 1 1 [])).env.reads.map (·.word) == [0#64]) = true
      ∧ hostWrite 0x0FF#12 7#64 State.reset = State.reset := by decide +kernel
/-- The listing examples of R97 and R98. -/
theorem test_listing :
    (expandAll [.wr .a 550, .wrIndex 0x001#12 0x01, .rd .resG, .cmd .gfmul]).map (fun op => String.ofList (listing op))
      = ["W 010 0000000000000226", "W 001 0000000000000001", "R 040", "W 001 0000000000000012"] := by decide +kernel

/-- Text in the syntax of R96 and R99, from P1 and the rules' own examples. -/
theorem test_program_text :
    parseProgram ("WR A, 550      ; operand\nCMD EXTGCD\nWAIT\nRD TR_Q[8] -> q\n\nWR MAT_IN[1][0], -2\nWR 0x0FF, 7\nLDMAT 2, [[3,3], [2,5]]").toList
      = some [.wr .a 550, .cmd .extgcd, .wait, .rd (.trace 8 .q), .wr (.matIn 1 0) (-2), .wrIndex 0x0FF#12 7,
          .ldmat 2 [[3, 3], [2, 5]]] := by decide +kernel
/-- Names are case-sensitive; a missing comma, an unknown mnemonic and a bracket not closed are no lines. -/
theorem test_no_program_text :
    (["WR a, 5", "WR A 5", "CMD FOO", "WR 0x1000, 1", "LDMAT 2, [[1,2],[3,4]"].any fun l => (parseLine l.toList).isSome) = false := by
  decide +kernel

/-! ## Witnesses: states and operands that meet the hypotheses of each obligation -/

/-- An idle machine after reset with the host's program and a schedule. -/
def idleWith (prog : List HostOp) (turns : List Turn) : State := { State.reset with env := { Env.empty with program := prog, turns := turns } }

/-- The same with `EXTGCD` in progress. -/
def busyWith (prog : List HostOp) (turns : List Turn) : State := { idleWith prog turns with cmd := 1#32, status := Status.accepted }

theorem witness_engine_turn_scheduled : EngineTurn (busyWith [] [.engine]) ∧ decode (busyWith [] [.engine]).cmd = .ok .extgcd :=
  ⟨⟨rfl, .inr ⟨[], rfl⟩⟩, by decide⟩
theorem witness_engine_turn_fair : EngineTurn (busyWith [] []) ∧ decode (busyWith [] []).cmd = .ok .extgcd := ⟨⟨rfl, .inl rfl⟩, by decide⟩
/-- The first word with a reserved bit, and an opcode at the edge of an unassigned range. -/
theorem witness_illegal_words :
    EngineTurn { busyWith [] [] with cmd := 0x100#32 } ∧ 256 ≤ (0x100#32).toNat
      ∧ EngineTurn { busyWith [] [] with cmd := 0x03#32 }
      ∧ (0x03#32).toNat % 256 ∉ [0x01, 0x02, 0x10, 0x11, 0x12, 0x13, 0x14, 0x20, 0x21, 0x22] :=
  ⟨⟨rfl, .inl rfl⟩, by decide, ⟨rfl, .inl rfl⟩, by decide⟩
theorem witness_host_turn_idle : HostTurn (idleWith [.wr 0x001#12 1#64] []) (.wr 0x001#12 1#64) []
    ∧ (idleWith [.wr 0x001#12 1#64] []).status.busy = false := ⟨⟨rfl, .inl ⟨rfl, rfl⟩⟩, rfl⟩
theorem witness_host_turn_busy : HostTurn (busyWith [.wr 0x001#12 1#64] [.host]) (.wr 0x001#12 1#64) []
    ∧ (busyWith [.wr 0x001#12 1#64] [.host]).status.busy = true := ⟨⟨rfl, .inr ⟨[], rfl⟩⟩, rfl⟩
theorem witness_host_turn_read : HostTurn (idleWith [.rd 0x040#12] []) (.rd 0x040#12) []
    ∧ HostTurn (busyWith [.rd 0x040#12] [.host]) (.rd 0x040#12) [] := ⟨⟨rfl, .inl ⟨rfl, rfl⟩⟩, ⟨rfl, .inr ⟨[], rfl⟩⟩⟩
theorem witness_host_turn_wait : HostTurn (idleWith [.wait] []) .wait [] ∧ (idleWith [.wait] []).status.busy = false
    ∧ HostTurn (busyWith [.wait] [.host]) .wait [] ∧ (busyWith [.wait] [.host]).status.busy = true :=
  ⟨⟨rfl, .inl ⟨rfl, rfl⟩⟩, rfl, ⟨rfl, .inr ⟨[], rfl⟩⟩, rfl⟩
theorem witness_success : ∃ t, exec .gfadd (busy 1 2 0 0 []) = .next t ∧ t.status.err = false := ⟨_, rfl, by decide +kernel⟩
theorem witness_error : ∃ t, exec .modinv (busy 1 2 0 0 []) = .next t ∧ t.status.err = true := ⟨_, rfl, by decide +kernel⟩
/-- `BUSY` rises by an accepted write, and falls by a completion and by a reset. -/
theorem witness_busy_rises : ∃ t, step (idleWith [.wr 0x001#12 1#64] []) = .next t ∧ t.status.busy = true := ⟨_, rfl, by decide +kernel⟩
theorem witness_busy_falls : (∃ t, step (busyWith [] []) = .next t ∧ t.status.busy = false)
    ∧ ∃ t, step (busyWith [] [.reset]) = .next t ∧ t.status.busy = false := ⟨⟨_, rfl, by decide +kernel⟩, ⟨_, rfl, by decide +kernel⟩⟩
/-- `REJ` is set by a dropped operand write, and cleared by an acceptance. -/
theorem witness_rej_set : (busyWith [.wr 0x010#12 1#64] [.host]).status.rej = false
    ∧ ∃ t, step (busyWith [.wr 0x010#12 1#64] [.host]) = .next t ∧ t.status.rej = true := ⟨rfl, ⟨_, rfl, by decide +kernel⟩⟩
theorem witness_rej_cleared :
    ∃ t, step { idleWith [.wr 0x001#12 1#64] [] with status := { Status.idle with done := true, rej := true } } = .next t
      ∧ t.status.rej = false := ⟨_, rfl, by decide +kernel⟩
theorem witness_undisturbed : ∃ t, step (busyWith [.wr 0x010#12 1#64] [.host]) = .next t
    ∧ nextMove (busyWith [.wr 0x010#12 1#64] [.host]) ≠ .completion ∧ nextMove (busyWith [.wr 0x010#12 1#64] [.host]) ≠ .reset :=
  ⟨_, rfl, by decide, by decide⟩
/-- While idle a write changes an operand, and a write of `CMD` changes `CMD`. -/
theorem witness_idle_changes : nextMove (idleWith [.wr 0x010#12 1#64] []) = .transaction (.wr 0x010#12 1#64)
    ∧ (∃ t, step (idleWith [.wr 0x010#12 1#64] []) = .next t ∧ t.ops ≠ (idleWith [] []).ops)
    ∧ ∃ t, step (idleWith [.wr 0x001#12 1#64] []) = .next t ∧ t.cmd ≠ (idleWith [] []).cmd :=
  ⟨rfl, ⟨_, rfl, by decide +kernel⟩, ⟨_, rfl, by decide +kernel⟩⟩
theorem witness_wait : (busyWith [.wait] [.host, .host]).env.turns = List.replicate 2 .host
    ∧ (busyWith [.wait] []).env.turns = List.replicate 0 .host ∧ (busyWith [.wait] []).status.busy = true := ⟨rfl, rfl, rfl⟩
/-- Two states that agree on what `EXTGCD`, `GFINV` and `MATINV` read, and differ in results. -/
theorem witness_reads_alone :
    let s := busy 0x53 1 26 1 [[5]]
    let s' := { s with res := { s.res with v := 7, g := 7 } }
    SameReads .extgcd s s' ∧ SameReads .gfinv s s' ∧ SameReads .matinv s s' :=
  ⟨⟨rfl, rfl⟩, rfl, ⟨rfl, rfl, fun _ _ _ _ => rfl⟩⟩
theorem witness_reads_alone_runs :
    let s := busy 0x53 1 26 1 [[5]]
    let s' := { s with res := { s.res with v := 7, g := 7 } }
    (∃ t t', exec .extgcd s = .next t ∧ exec .extgcd s' = .next t' ∧ t.status.err = false)
      ∧ (∃ t t', exec .gfinv s = .next t ∧ exec .gfinv s' = .next t' ∧ t.status.err = false)
      ∧ ∃ t t', exec .matinv s = .next t ∧ exec .matinv s' = .next t' ∧ t.status.err = false :=
  ⟨⟨_, _, rfl, rfl, by decide +kernel⟩, ⟨_, _, rfl, rfl, by decide +kernel⟩, ⟨_, _, rfl, rfl, by decide +kernel⟩⟩

/-- The least and the greatest legal parameters. -/
theorem witness_legal : Params.legal { w := 2, nmax := 1, traceDepth := 2 } ∧ Params.legal { w := 63, nmax := 15, traceDepth := 128 }
    ∧ Params.legal ref := by decide
theorem witness_wf_reset : State.reset.wf where
  cfg := by decide
  status := by decide
  ops := { a := by decide, b := by decide, m := by decide, keyChar := by decide, matIn := by decide }
  res := { g := by decide, x := by decide, y := by decide, v := by decide, vNonneg := by decide, traceLen := by decide, depth := by decide +kernel,
           rows := by decide +kernel, placed := by decide +kernel, matOut := by decide, matOutNonneg := by decide }
theorem witness_wf_busy : (busyWith [.wait] []).wf ∧ ∃ t, step (busyWith [.wait] []) = .next t :=
  ⟨{ witness_wf_reset with status := by decide }, _, rfl⟩
theorem witness_wf_operands : (busy (-2 ^ 31) (2 ^ 31 - 1) 26 1 [[5]]).wf :=
  { witness_wf_reset with
    status := by decide
    ops := { a := by decide, b := by decide, m := by decide, keyChar := by decide, matIn := by decide +kernel } }
theorem witness_reset_turn : (busyWith [] [.reset, .host]).env.turns = .reset :: [.host] := rfl
theorem witness_registers_exist :
    ([Reg.cfg, .status, .keyChar 0, .keyChar 15, .matIn 3 3, .matOut 3 3, .trace 0 .idx, .trace 63 .y].all (Reg.wellFormed ref)) = true := by
  decide
/-- Indices just inside and just outside each range of R23, at reference parameters. -/
theorem witness_mapped_edges :
    ([0x000, 0x002, 0x010, 0x014, 0x040, 0x044, 0x100, 0x10F, 0x200, 0x233, 0x300, 0x333, 0x400, 0x5FD].all
        fun ix => (regAt ref (BitVec.ofNat 12 ix)).isSome) = true
      ∧ ([0x003, 0x00F, 0x015, 0x03F, 0x045, 0x0FF, 0x110, 0x204, 0x240, 0x304, 0x340, 0x406, 0x407, 0x5FE, 0x600, 0xFFF].all
        fun ix => (regAt ref (BitVec.ofNat 12 ix)).isNone) = true := by decide +kernel
theorem witness_mapped_index : MappedIndex ref 0x044 ∧ MappedIndex ref 0x10F ∧ MappedIndex ref 0x333 ∧ MappedIndex ref 0x5FD :=
  ⟨.inl (by decide), .inr (.inl ⟨15, by decide, rfl⟩), .inr (.inr (.inl ⟨3, by decide, 3, by decide, .inr rfl⟩)),
    .inr (.inr (.inr ⟨63, by decide, 5, by decide, rfl⟩))⟩
theorem witness_unmapped_index : ¬MappedIndex ref 0x045 := by
  rintro (h | ⟨k, _, h⟩ | ⟨i, _, j, _, h | h⟩ | ⟨k, _, f, _, h⟩)
  · exact absurd h (by decide)
  all_goals omega
theorem witness_read_only_index : ReadOnlyIndex 0x000 ∧ ReadOnlyIndex 0x002 ∧ ReadOnlyIndex 0x040 ∧ ReadOnlyIndex 0x044 ∧ ReadOnlyIndex 0x300 :=
  ⟨.inl rfl, .inr (.inl rfl), .inr (.inr (.inl (by decide))), .inr (.inr (.inl (by decide))), .inr (.inr (.inr (by decide)))⟩
theorem witness_operand_write : State.reset.wf ∧ (busyWith [] []).wf
    ∧ ([Reg.a, .n, .keyChar 15, .matIn 3 3].all (Reg.wellFormed State.reset.cfg)) = true :=
  ⟨witness_wf_reset, { witness_wf_reset with status := by decide }, by decide⟩
theorem witness_read_mapped : regAt State.reset.cfg 0x010#12 = some .a ∧ regAt (busyWith [] []).cfg 0x002#12 = some .status
    ∧ regAt (busyWith [] []).cfg 0x010#12 = some .a ∧ Reg.a ∉ [Reg.cfg, .cmd, .status] := by decide +kernel
theorem witness_read_widths : State.reset.wf ∧ State.reset.res.trace[63]? = some TraceRow.zero := ⟨witness_wf_reset, by decide +kernel⟩
theorem witness_ldkey : State.reset.wf ∧ (Pseudo.ldkey (List.replicate 16 0x41#8)).wellFormed State.reset.cfg = true
    ∧ (Pseudo.ldkey []).wellFormed State.reset.cfg = true := ⟨witness_wf_reset, by decide, by decide⟩
/-- Entries at the edges of W bits, and one past them that a port word holds. -/
theorem witness_ldmat : State.reset.wf ∧ (Pseudo.ldmat 2 [[-2 ^ 31, 2 ^ 31 - 1], [0, 2 ^ 31]]).wellFormed State.reset.cfg = true
    ∧ fitsSigned 32 (gridEntry [[-2 ^ 31, 2 ^ 31 - 1], [0, 2 ^ 31]] 0 1) ∧ ¬fitsSigned 32 (gridEntry [[-2 ^ 31, 2 ^ 31 - 1], [0, 2 ^ 31]] 1 1) :=
  ⟨witness_wf_reset, by decide, by decide, by decide⟩
theorem witness_listing : HostOp.wr 0x010#12 550#64 ≠ .wait ∧ HostOp.rd 0x040#12 ≠ .wait := by decide
theorem witness_extgcd : (busy (-2 ^ 31) (-1) 0 0 []).cfg.legal ∧ fitsSigned 32 (-2 ^ 31) ∧ fitsSigned 32 (-1)
    ∧ ∃ t, exec .extgcd (busy (-2 ^ 31) (-1) 0 0 []) = .next t := ⟨by decide, by decide, by decide, _, rfl⟩
/-- `MODINV`: a modulus just outside, a shared factor, and the modulus 1 that always succeeds. -/
theorem witness_modinv :
    (busy 7 0 0 0 []).ops.m < 1
      ∧ (1 ≤ (busy 4 0 26 0 []).ops.m ∧ Int.gcd (busy 4 0 26 0 []).ops.a (busy 4 0 26 0 []).ops.m ≠ 1)
      ∧ (1 ≤ (busy 0 0 1 0 []).ops.m ∧ Int.gcd (busy 0 0 1 0 []).ops.a (busy 0 0 1 0 []).ops.m = 1)
      ∧ (2 ≤ (busy (-3) 0 26 0 []).ops.m ∧ Int.gcd (busy (-3) 0 26 0 []).ops.a (busy (-3) 0 26 0 []).ops.m = 1) := by decide +kernel
theorem witness_field_edges : InField 0 ∧ InField 255 ∧ ¬InField 256 ∧ ¬InField (-1) := by unfold InField; decide
theorem witness_gf_bytes : (0x53#8 ≠ 0#8) ∧ gfMul 0x53#8 0xCA#8 = 1#8 := by decide +kernel
theorem witness_matrix : MatrixAccepted (busy 0 0 26 2 [[3, 3], [2, 5]]) 2 ∧ MatrixAccepted (busy 0 0 1 4 []) 4 := by
  unfold MatrixAccepted; decide +kernel
/-- The checks of R174 at the edges: n = 0, n = NMAX + 1, M = 0, an entry -1, an entry M. -/
theorem witness_matrix_checks :
    (busy 0 0 26 0 []).ops.n.toNat = 0 ∧ (busy 0 0 26 5 []).cfg.nmax < (busy 0 0 26 5 []).ops.n.toNat ∧ (busy 0 0 0 4 []).ops.m < 1
      ∧ gridEntry (busy 0 0 26 2 [[1, 1], [1, -1]]).ops.matIn 1 1 < 0 ∧ (26 : Int) ≤ gridEntry (busy 0 0 26 2 [[1, 1], [1, 26]]).ops.matIn 1 1 := by
  decide +kernel
theorem witness_matkey_reads : SameReads .matkey (withKey [0x41]) { withKey [0x41] with cmd := 0x22#32 }
    ∧ ∃ t, exec .matkey (withKey [0x41]) = .next t ∧ t.status.err = false := ⟨⟨rfl, fun _ _ => rfl⟩, _, rfl, by decide +kernel⟩
theorem witness_determinants :
    Int.gcd ((inputMatrix (busy 0 0 26 2 [[3, 3], [2, 5]]) 2).det % 26) 26 = 1
      ∧ Int.gcd ((inputMatrix (busy 0 0 26 2 [[0, 1], [2, 3]]) 2).det % 26) 26 ≠ 1 := by
  constructor <;> (rw [Matrix.det_fin_two]; decide +kernel)
theorem witness_hill : ∃ t, exec .matinv (busy 0 0 26 2 [[3, 3], [2, 5]]) = .next t ∧ t.status.err = false := ⟨_, rfl, by decide +kernel⟩
theorem witness_hill_block : ∀ i < (busy 0 0 26 2 []).ops.n.toNat, 0 ≤ (fun _ : Nat => (25 : Int)) i ∧ (fun _ : Nat => (25 : Int)) i ≤ 25 := by
  intro i _; exact ⟨by norm_num, by norm_num⟩
/-- Keys of 1 and 16 characters, with letters at the edges of R179's ranges. -/
theorem witness_matkey :
    (withKey (List.replicate 16 0x5A)).ops.keyLen.toNat = 4 * 4 ∧ (∀ k < 16, IsLetter (keyCharacter (withKey (List.replicate 16 0x5A)) k))
      ∧ (withKey [0x7A]).ops.keyLen.toNat = 1 * 1 ∧ ∀ k < 1, IsLetter (keyCharacter (withKey [0x7A]) k) := by
  unfold IsLetter; decide +kernel
/-- A key at the least width that `MATKEY` accepts, W = 6. -/
theorem witness_matkey_width : Params.legal { w := 6, nmax := 4, traceDepth := 64 }
    ∧ 6 ≤ (narrowKey 6).cfg.w ∧ (narrowKey 6).ops.keyLen.toNat = 1 * 1 ∧ 1 ≤ (narrowKey 6).cfg.nmax
    ∧ (∀ k < 1, IsLetter (keyCharacter (narrowKey 6) k)) ∧ code .matkey (narrowKey 6) = some .none := by
  unfold IsLetter; decide +kernel
/-- A key of a legal length at the greatest width that `MATKEY` refuses, W = 5. -/
theorem witness_matkey_too_narrow : Params.legal { w := 5, nmax := 4, traceDepth := 64 }
    ∧ (narrowKey 5).cfg.w < 6 ∧ 1 * 1 = (narrowKey 5).ops.keyLen.toNat ∧ code .matkey (narrowKey 5) = some .unsupportedSize := by
  decide +kernel
/-- The checks of `MATKEY` at the edges: lengths 0 and 3, dimension 5, and the neighbours of the letters. -/
theorem witness_matkey_checks :
    (withKey []).ops.keyLen.toNat = 0 ∧ (∀ n, n * n ≠ (withKey [0x41, 0x41, 0x41]).ops.keyLen.toNat)
      ∧ 5 * 5 = (withKey (List.replicate 25 0x41)).ops.keyLen.toNat ∧ (withKey (List.replicate 25 0x41)).cfg.nmax < 5
      ∧ ¬IsLetter (keyCharacter (withKey [0x40]) 0) ∧ ¬IsLetter (keyCharacter (withKey [0x5B]) 0)
      ∧ ¬IsLetter (keyCharacter (withKey [0x60]) 0) ∧ ¬IsLetter (keyCharacter (withKey [0x7B]) 0) := by
  refine ⟨by decide, ?_, by decide, by decide, ?_⟩
  · intro n h
    have h3 : (withKey [0x41, 0x41, 0x41]).ops.keyLen.toNat = 3 := by decide
    rw [h3] at h
    have : n ≤ 1 ∨ 2 ≤ n := by omega
    rcases this with hn | hn
    · have := Nat.mul_le_mul hn hn; omega
    · have := Nat.mul_le_mul hn hn; omega
  · unfold IsLetter; decide +kernel

end Sys2Proof.Tests
end

section
/-! PROOFS. O17 and O19: reset meets `State.wf`, and every operation of the model keeps it, hence every step does. -/

namespace Sys2Proof.Machine

open Sys2Proof.Config

/-! ## `STATUS` (R27 to R30) -/

theorem Status.wf_idle : Status.idle.wf := by decide

theorem Status.wf_accepted : Status.accepted.wf := by decide

theorem Status.wf_completed (st : Status) : st.completed.wf := by simp [Status.wf]

theorem Status.wf_failed {c : ErrCode} (st : Status) (hc : c ≠ .none) : (st.failed c).wf := by simpa [Status.wf] using hc

/-- A write is dropped only while a command is in progress, which is what R30 asks of `REJ`. -/
theorem Status.wf_rejected {st : Status} (h : st.wf) (hbusy : st.busy = true) : st.rejected.wf := by
  obtain ⟨hdone, herr, hcode, _⟩ := h
  exact ⟨hdone, herr, hcode, fun _ => .inl hbusy⟩

/-! ## Values and arrays -/

/-- A value below one that fits, and not negative, fits: a residue fits where its modulus does. -/
theorem fitsSigned_of_range {w : Nat} {v m : Int} (hm : fitsSigned w m) (h0 : 0 ≤ v) (h1 : v < m) : fitsSigned w v := by
  have : (0 : Int) < 2 ^ (w - 1) := by positivity
  omega

/-- A residue modulo an operand that fits is not negative, and fits (R116, R173). -/
theorem floormod_fits {w : Nat} {m : Int} (p : Int) (hm : fitsSigned w m) (h1 : 1 ≤ m) :
    fitsSigned w (floormod p m) ∧ 0 ≤ floormod p m :=
  have h0 := floormod_nonneg p (show 0 < m by omega)
  ⟨fitsSigned_of_range hm h0 (floormod_lt p (by omega)), h0⟩

theorem gridOf_wf {nmax n w : Nat} {f : Nat → Nat → Int} (hf : ∀ i j, fitsSigned w (f i j)) : gridWf nmax w (gridOf nmax n f) := by
  refine ⟨gridOf_length nmax n f, fun row hrow => ?_⟩
  obtain ⟨hlen, hval⟩ := gridOf_rows hrow
  refine ⟨hlen, fun v hv => ?_⟩
  rcases hval v hv with rfl | ⟨i, j, _, _, rfl⟩
  · exact fitsSigned_zero w
  · exact hf i j

theorem gridOf_nonneg {nmax n : Nat} {f : Nat → Nat → Int} (hf : ∀ i j, 0 ≤ f i j) : ∀ row ∈ gridOf nmax n f, ∀ v ∈ row, 0 ≤ v := by
  intro row hrow v hv
  rcases (gridOf_rows hrow).2 v hv with rfl | ⟨i, j, _, _, rfl⟩
  · exact le_rfl
  · exact hf i j

theorem mem_zeroGrid {nmax : Nat} {row : List Int} (h : row ∈ zeroGrid nmax) : row.length = nmax ∧ ∀ v ∈ row, v = 0 := by
  obtain rfl := List.eq_of_mem_replicate h
  exact ⟨List.length_replicate, fun v hv => List.eq_of_mem_replicate hv⟩

theorem zeroGrid_wf (nmax w : Nat) : gridWf nmax w (zeroGrid nmax) :=
  ⟨List.length_replicate, fun _ hrow => ⟨(mem_zeroGrid hrow).1, fun v hv => (mem_zeroGrid hrow).2 v hv ▸ fitsSigned_zero w⟩⟩

/-! ## The trace (R42, R118) -/

theorem TraceRow.wf_zero (p : Params) : TraceRow.wf p TraceRow.zero :=
  ⟨fitsSigned_zero _, fitsSigned_zero _, fitsSigned_zero _, fitsSigned_zero _⟩

theorem traceRow_of_le {rows : List EuclidRow} {k : Nat} (h : rows.length ≤ k) : traceRow rows k = TraceRow.zero := by
  simp [traceRow, h]

theorem traceRow_of_lt {rows : List EuclidRow} {k : Nat} (h : k < rows.length) :
    traceRow rows k = { idx := BitVec.ofNat 8 k, qv := rows[k].qv, rem := rows[k].remainder, q := rows[k].quotient,
                        x := rows[k].bezoutX, y := rows[k].bezoutY } := by
  simp [traceRow, h]

theorem traceRow_euclid_wf {p : Params} {a b : Int} (hw : 1 ≤ p.w) (ha : fitsSigned p.w a) (hb : fitsSigned p.w b) (k : Nat) :
    TraceRow.wf p (traceRow (euclid a b).rows k) := by
  by_cases hk : k < (euclid a b).rows.length
  · rw [traceRow_of_lt hk]
    exact euclid_row_fits hw ha hb _ (List.getElem_mem hk)
  · rw [traceRow_of_le (by omega)]
    exact TraceRow.wf_zero p

theorem traceRow_euclid_placed (a b : Int) (k : Nat) :
    TraceRow.placed (euclid a b).rows.length k (traceRow (euclid a b).rows k) := by
  refine ⟨fun hk => ?_, traceRow_of_le⟩
  rw [traceRow_of_lt hk]
  exact ⟨rfl, (euclid_row_index (List.getElem?_eq_getElem hk)).2⟩

/-! ## Reset (R230) -/

theorem Operands.wf_reset (p : Params) : (Operands.reset p).wf p where
  a := fitsSigned_zero _
  b := fitsSigned_zero _
  m := fitsSigned_zero _
  keyChar := List.length_replicate
  matIn := zeroGrid_wf _ _

theorem Results.wf_reset (p : Params) : (Results.reset p).wf p where
  g := fitsSigned_zero _
  x := fitsSigned_zero _
  y := fitsSigned_zero _
  v := fitsSigned_zero _
  vNonneg := le_rfl
  traceLen := Nat.zero_le _
  depth := List.length_replicate
  rows := fun _ hrow => List.eq_of_mem_replicate hrow ▸ TraceRow.wf_zero p
  placed := fun k hk => ⟨fun h => absurd h (Nat.not_lt_zero k), fun _ => by simp [Results.reset, hk]⟩
  matOut := zeroGrid_wf _ _
  matOutNonneg := fun _ hrow v hv => ((mem_zeroGrid hrow).2 v hv).ge

theorem resetFor_wf {p : Params} (hp : p.legal) : (State.resetFor p).wf where
  cfg := hp
  status := Status.wf_idle
  ops := Operands.wf_reset p
  res := Results.wf_reset p

/-- Settles O19: every register is 0 after reset, and 0 fits every width. -/
theorem resetIsWellFormed : Obligations.ResetIsWellFormed := fun _ hp => resetFor_wf hp

/-! ## The updates of the state that every command and transaction is made of -/

/-- `CMD` and the host side are unconstrained: an update that leaves the operands and results alone need only leave a well-formed `STATUS`. -/
theorem State.wf.of_frame {s t : State} (hs : s.wf) (hcfg : t.cfg = s.cfg) (hops : t.ops = s.ops) (hres : t.res = s.res)
    (hst : t.status.wf) : t.wf where
  cfg := hcfg ▸ hs.cfg
  status := hst
  ops := by rw [hcfg, hops]; exact hs.ops
  res := by rw [hcfg, hres]; exact hs.res

theorem popTurn_wf {s : State} (hs : s.wf) : (popTurn s).wf := hs.of_frame rfl rfl rfl hs.status

theorem popOp_wf {s : State} (hs : s.wf) : (popOp s).wf := hs.of_frame rfl rfl rfl hs.status

theorem complete_wf {s : State} (hs : s.wf) : (complete s).wf := hs.of_frame rfl rfl rfl (Status.wf_completed _)

theorem raiseErr_wf {s : State} {c : ErrCode} (hs : s.wf) (hc : c ≠ .none) : (raiseErr c s).wf :=
  hs.of_frame rfl rfl rfl (Status.wf_failed _ hc)

theorem accept_wf {s : State} (d : PortWord) (hs : s.wf) : (accept d s).wf := hs.of_frame rfl rfl rfl Status.wf_accepted

theorem reject_wf {s : State} (hs : s.wf) (hbusy : s.status.busy = true) : (reject s).wf :=
  hs.of_frame rfl rfl rfl (Status.wf_rejected hs.status hbusy)

theorem resetStep_wf {s : State} (hs : s.wf) : (resetStep s).wf := (resetFor_wf hs.cfg).of_frame rfl rfl rfl Status.wf_idle

theorem writeOperand_wf {p : Params} {o : Operands} {r : Reg} (d : PortWord) (hw : 1 ≤ p.w) (hr : r.wellFormed p = true)
    (ho : o.wf p) : (writeOperand p.w o r d).wf p := by
  cases r with
  | a => exact { ho with a := narrowSigned_fits hw d }
  | b => exact { ho with b := narrowSigned_fits hw d }
  | m => exact { ho with m := narrowSigned_fits hw d }
  | n | keyLen => exact { ho with }
  | keyChar k => exact { ho with keyChar := List.length_set.trans ho.keyChar }
  | matIn i j =>
    have hi : i < p.nmax := by simp only [Reg.wellFormed, Bool.and_eq_true, decide_eq_true_eq] at hr; exact hr.1
    exact { ho with matIn := gridSet_wf ho.matIn (narrowSigned_fits hw d) hi }
  | cfg | cmd | status | resG | resX | resY | resV | traceLen | matOut | trace => exact ho

theorem storeOperand_wf {s : State} {r : Reg} (d : PortWord) (hs : s.wf) (hr : r.wellFormed s.cfg = true) : (storeOperand r d s).wf :=
  { hs with ops := writeOperand_wf d (Nat.le_of_succ_le hs.cfg.1) hr hs.ops }

theorem putV_wf {s : State} {v : Int} (hs : s.wf) (hv : fitsSigned s.cfg.w v ∧ 0 ≤ v) : (putV v s).wf :=
  { hs with res := { hs.res with v := hv.1, vNonneg := hv.2 } }

theorem putInverse_wf {s : State} {n : Nat} {d : Int} {f : Nat → Nat → Int} (hs : s.wf) (hd : fitsSigned s.cfg.w d ∧ 0 ≤ d)
    (hf : ∀ i j, fitsSigned s.cfg.w (f i j) ∧ 0 ≤ f i j) : (putInverse n d f s).wf :=
  { hs with res := { hs.res with
      v := hd.1
      vNonneg := hd.2
      matOut := gridOf_wf fun i j => (hf i j).1
      matOutNonneg := gridOf_nonneg fun i j => (hf i j).2 } }

theorem putKey_wf {s : State} {n : Nat} {f : Nat → Nat → Int} (hs : s.wf) (hf : ∀ i j, fitsSigned s.cfg.w (f i j)) :
    (putKey n f s).wf :=
  { hs with ops := { hs.ops with matIn := gridOf_wf hf } }

/-- The bound of R115 is below 2^8 for every legal width, so `TRACE_LEN` holds the run's length itself (R41). -/
theorem traceLen_euclid {p : Params} {a b : Int} (hp : p.legal) (hb : fitsSigned p.w b) :
    (BitVec.ofNat 8 (euclid a b).rows.length).toNat = (euclid a b).rows.length := by
  have hlen := euclid_rows_length (a := a) hp.1 hb
  have hw : p.w ≤ 63 := hp.2.1
  rw [BitVec.toNat_ofNat]
  exact Nat.mod_eq_of_lt (by omega)

theorem putEuclid_wf {s : State} (hs : s.wf) : (putEuclid (euclid s.ops.a s.ops.b) s).wf := by
  have hw : 2 ≤ s.cfg.w := hs.cfg.1
  have hlen := traceLen_euclid (a := s.ops.a) hs.cfg hs.ops.b
  obtain ⟨hg, hx, hy⟩ := euclid_fits hw hs.ops.a hs.ops.b
  refine { hs with res := { hs.res with
    g := hg, x := hx, y := hy
    traceLen := hlen.trans_le (euclid_rows_length hw hs.ops.b)
    depth := by simp
    rows := fun row hrow => ?_
    placed := fun k hk => ?_ } }
  · obtain ⟨k, _, rfl⟩ := List.mem_map.mp hrow
    exact traceRow_euclid_wf (by omega) hs.ops.a hs.ops.b k
  · have hget : (putEuclid (euclid s.ops.a s.ops.b) s).res.trace.getD k TraceRow.zero
        = traceRow (euclid s.ops.a s.ops.b).rows k := by
      have hk' : k < s.cfg.traceDepth := hk
      simp [hk']
    rw [hget, putEuclid_traceLen, hlen]
    exact traceRow_euclid_placed _ _ k

/-! ## Commands: each ends in a well-formed state, or with an error that has a code -/

/-- What the outcome of a command must be for its completion to keep the invariant. -/
def EndsWell : Except ErrCode State → Prop
  | .ok s' => s'.wf
  | .error c => c ≠ .none

theorem conclude_wf {s t : State} {r : Except ErrCode State} (hs : s.wf) (hr : EndsWell r) (h : conclude s r = .next t) : t.wf := by
  rcases conclude_cases h with ⟨s', rfl, rfl⟩ | ⟨c, rfl, rfl⟩
  · exact complete_wf hr
  · exact raiseErr_wf hs hr

theorem fieldElement_error_code {v : Int} {c : ErrCode} (h : fieldElement v = .error c) : c ≠ .none := by
  unfold fieldElement at h
  split at h
  · cases h; decide
  · contradiction

theorem matrixDimension_error_code {s : State} {c : ErrCode} (h : matrixDimension s = .error c) : c ≠ .none := by
  unfold matrixDimension at h
  repeat' split at h
  all_goals cases h
  all_goals decide

theorem keyDimension_error_code {s : State} {c : ErrCode} (h : keyDimension s = .error c) : c ≠ .none := by
  unfold keyDimension at h
  simp only at h
  repeat' split at h
  all_goals cases h
  all_goals decide

theorem inverseMod_error_code {failure c : ErrCode} {a m : Int} (h : inverseMod failure a m = .error c) : c = failure := by
  simp only [inverseMod] at h
  split at h
  · cases h; rfl
  · contradiction

theorem inverseMod_fits {failure : ErrCode} {a m v : Int} {w : Nat} (hm : fitsSigned w m) (h1 : 1 ≤ m)
    (h : inverseMod failure a m = .ok v) : fitsSigned w v ∧ 0 ≤ v := by
  rcases inverseMod_cases failure a h1 with ⟨_, he⟩ | ⟨_, u, he, h0, hlt, _⟩ <;> rw [he] at h <;> cases h
  exact ⟨fitsSigned_of_range hm h0 hlt, h0⟩

theorem putV_fieldResult_wf {s : State} (hs : s.wf) (i : Instr) (b : Int) (r : Byte) : (putV (fieldResult s i b r) s).wf :=
  putV_wf hs (fieldResult_fits s i b r)

/-- A letter index is below 26, which a signed register holds from W = 6 on, the least width `MATKEY` accepts (R182). -/
theorem keyEntry_fits {s : State} (n i j : Nat) (hw : 6 ≤ s.cfg.w) : fitsSigned s.cfg.w (keyEntry s n i j) := by
  have hpow : (2 : Int) ^ 5 ≤ 2 ^ (s.cfg.w - 1) := pow_le_pow_right₀ (by norm_num) (by omega)
  have hrange := keyEntry_range s n i j
  norm_num at hpow
  omega

theorem exec_wf {i : Instr} {s t : State} (hs : s.wf) (h : exec i s = .next t) : t.wf := by
  have hm := hs.ops.m
  cases i with
  | extgcd => exact conclude_wf (r := .ok _) hs (putEuclid_wf hs) h
  | modinv =>
    refine conclude_wf hs ?_ h
    split
    · exact nofun
    · split
      · next hm1 v hv => exact putV_wf hs (inverseMod_fits hm (by omega) hv)
      · next hc => exact inverseMod_error_code hc ▸ nofun
  | gfadd | gfsub | gfmul =>
    refine conclude_wf hs ?_ h
    rcases fieldOperands_cases s with ⟨_, hf⟩ | ⟨_, hf⟩ <;> rw [hf]
    · exact putV_fieldResult_wf hs _ _ _
    · exact nofun
  | gfinv =>
    refine conclude_wf hs ?_ h
    split
    · next hc => exact fieldElement_error_code hc
    · split
      · exact nofun
      · exact putV_fieldResult_wf hs _ _ _
  | gfdiv =>
    refine conclude_wf hs ?_ h
    rcases fieldOperands_cases s with ⟨_, hf⟩ | ⟨_, hf⟩ <;> rw [hf]
    · dsimp only
      split
      · exact nofun
      · exact putV_fieldResult_wf hs _ _ _
    · exact nofun
  | detmod =>
    refine conclude_wf hs ?_ h
    split
    · next hc => exact matrixDimension_error_code hc
    · next hn =>
      obtain ⟨_, _, _, hm1, _⟩ := matrixDimension_ok hn
      exact putV_wf hs (floormod_fits _ hm hm1)
  | matinv =>
    refine conclude_wf hs ?_ h
    split
    · next hc => exact matrixDimension_error_code hc
    · next hn =>
      obtain ⟨_, _, _, hm1, _⟩ := matrixDimension_ok hn
      dsimp only
      split
      · next hc => exact inverseMod_error_code hc ▸ nofun
      · exact putInverse_wf hs (floormod_fits _ hm hm1) fun i j => floormod_fits _ hm hm1
  | matkey =>
    refine conclude_wf hs ?_ h
    split
    · next hc => exact keyDimension_error_code hc
    · next n hn =>
      obtain ⟨_, _, _, hw, _⟩ := keyDimension_ok hn
      exact putKey_wf hs fun i j => keyEntry_fits n i j hw

/-! ## Transactions and steps -/

theorem hostWrite_wf {s : State} (ix : Index) (d : PortWord) (hs : s.wf) : (hostWrite ix d s).wf := by
  rcases hostWrite_cases ix d s with h | ⟨hbusy, h⟩ | ⟨_, _, h⟩ | ⟨_, r, hr, _, h⟩ <;> rw [h]
  · exact hs
  · exact reject_wf hs hbusy
  · exact accept_wf d hs
  · exact storeOperand_wf d hs (regAt_wellFormed hr)

theorem hostStep_wf {s : State} (op : HostOp) (hs : s.wf) : (hostStep op s).wf := by
  rcases hostStep_cases op s with ⟨ix, d, _, h⟩ | ⟨hcfg, _, hst, hops, hres⟩
  · rw [h]; exact hostWrite_wf ix d (popOp_wf hs)
  · exact hs.of_frame hcfg hops hres (hst ▸ hs.status)

theorem step_wf {s t : State} (hs : s.wf) (h : step s = .next t) : t.wf := by
  have hp := popTurn_wf hs
  rcases step_cases h with ⟨_, _, ⟨i, _, hx⟩ | ⟨e, _, rfl⟩⟩ | ⟨op, _, rfl⟩ | ⟨_, rfl⟩ | ⟨_, rfl⟩
  · exact exec_wf hp hx
  · exact raiseErr_wf hp nofun
  · exact hostStep_wf op hp
  · exact resetStep_wf hp
  · exact hp

/-- Settles O17, by cases of what a step can do (`step_cases`): each operation it is made of keeps `State.wf`. -/
theorem stepKeepsWellFormedness : Obligations.StepKeepsWellFormedness := fun _ _ => step_wf

end Sys2Proof.Machine
end

section
/-! PROOFS. O10, O11, O22 to O27, O29 and O30: the register map is the table of R23; what transactions and steps do to `STATUS`, `CFG` and the
operand registers; the words of `CFG` and `STATUS`. -/

namespace Sys2Proof.Machine

open Sys2Proof.Config

/-! ## The register map (R22, R23) -/

/-- The register lies in its block of the map: 0x100 indices of key characters, 16 rows of 16 matrix entries, and rows of 8 trace
registers from 0x400 up to the last index. -/
def FitsBlock : Reg → Prop
  | .keyChar k => k < 0x100
  | .matIn i j | .matOut i j => i < 16 ∧ j < 16
  | .trace k _ => k < 0x180
  | .cfg | .cmd | .status | .a | .b | .m | .n | .keyLen | .resG | .resX | .resY | .resV | .traceLen => True

/-- With legal parameters every register of the implementation fits its block (R9, R23). -/
theorem fitsBlock_of_legal {p : Params} {r : Reg} (hp : p.legal) (hr : r.wellFormed p = true) : FitsBlock r := by
  obtain ⟨_, _, _, hn, _, hd⟩ := hp
  cases r with
  | keyChar k =>
    have hsq : p.nmax * p.nmax ≤ 15 * 15 := Nat.mul_le_mul hn hn
    simp only [Reg.wellFormed, decide_eq_true_eq] at hr
    simp only [FitsBlock]; omega
  | matIn i j | matOut i j =>
    simp only [Reg.wellFormed, Bool.and_eq_true, decide_eq_true_eq] at hr
    simp only [FitsBlock]; omega
  | trace k f =>
    simp only [Reg.wellFormed, decide_eq_true_eq] at hr
    simp only [FitsBlock]; omega
  | cfg | cmd | status | a | b | m | n | keyLen | resG | resX | resY | resV | traceLen => trivial

theorem traceOffset_lt (f : TraceField) : traceOffset f < 6 := by cases f <;> decide

theorem traceFieldAt_eq_some_iff {o : Nat} {f : TraceField} : traceFieldAt o = some f ↔ o = traceOffset f := by
  constructor
  · intro h
    unfold traceFieldAt at h
    split_ifs at h <;> cases h <;> assumption
  · rintro rfl
    cases f <;> rfl

theorem regIndex_keyChar_toNat {k : Nat} (hk : k < 0x100) : (regIndex (.keyChar k)).toNat = 0x100 + k := by
  simp only [regIndex, BitVec.toNat_ofNat]; omega

theorem regIndex_matIn_toNat {i j : Nat} (hi : i < 16) (hj : j < 16) : (regIndex (.matIn i j)).toNat = 0x200 + 16 * i + j := by
  simp only [regIndex, BitVec.toNat_ofNat]; omega

theorem regIndex_matOut_toNat {i j : Nat} (hi : i < 16) (hj : j < 16) : (regIndex (.matOut i j)).toNat = 0x300 + 16 * i + j := by
  simp only [regIndex, BitVec.toNat_ofNat]; omega

theorem regIndex_trace_toNat {k : Nat} (f : TraceField) (hk : k < 0x180) :
    (regIndex (.trace k f)).toNat = 0x400 + 8 * k + traceOffset f := by
  have := traceOffset_lt f
  simp only [regIndex, BitVec.toNat_ofNat]; omega

/-! The map, one equation per block. -/

theorem regAt_scalar {p : Params} {ix : Index} (h : ix.toNat < 0x100) : regAt p ix = scalarAt ix.toNat := if_pos h

theorem regAt_keyChar {p : Params} {ix : Index} {k : Nat} (hk : k < 0x100) (h : ix.toNat = 0x100 + k) :
    regAt p ix = if k < p.nmax * p.nmax then some (.keyChar k) else none := by
  simp only [regAt, h]
  rw [if_neg (by omega), if_pos (by omega), Nat.add_sub_cancel_left]

theorem regAt_matIn {p : Params} {ix : Index} {i j : Nat} (hi : i < 16) (hj : j < 16) (h : ix.toNat = 0x200 + 16 * i + j) :
    regAt p ix = if i < p.nmax ∧ j < p.nmax then some (.matIn i j) else none := by
  have hrow : (0x200 + 16 * i + j - 0x200) / 16 = i := by omega
  have hcol : (0x200 + 16 * i + j - 0x200) % 16 = j := by omega
  simp only [regAt, h, hrow, hcol]
  rw [if_neg (by omega), if_neg (by omega), if_pos (by omega)]

theorem regAt_matOut {p : Params} {ix : Index} {i j : Nat} (hi : i < 16) (hj : j < 16) (h : ix.toNat = 0x300 + 16 * i + j) :
    regAt p ix = if i < p.nmax ∧ j < p.nmax then some (.matOut i j) else none := by
  have hrow : (0x300 + 16 * i + j - 0x300) / 16 = i := by omega
  have hcol : (0x300 + 16 * i + j - 0x300) % 16 = j := by omega
  simp only [regAt, h, hrow, hcol]
  rw [if_neg (by omega), if_neg (by omega), if_neg (by omega), if_pos (by omega)]

theorem regAt_trace {p : Params} {ix : Index} {k o : Nat} (ho : o < 8) (h : ix.toNat = 0x400 + 8 * k + o) :
    regAt p ix = if k < p.traceDepth then (traceFieldAt o).map (.trace k) else none := by
  have hrow : (0x400 + 8 * k + o - 0x400) / 8 = k := by omega
  have hoff : (0x400 + 8 * k + o - 0x400) % 8 = o := by omega
  simp only [regAt, h, hrow, hoff]
  rw [if_neg (by omega), if_neg (by omega), if_neg (by omega), if_neg (by omega)]
  cases traceFieldAt o <;> rfl

/-- Every index lies in one block of the map. -/
theorem index_cases (ix : Index) :
    ix.toNat < 0x100
      ∨ (∃ k < 0x100, ix.toNat = 0x100 + k)
      ∨ (∃ i < 16, ∃ j < 16, ix.toNat = 0x200 + 16 * i + j)
      ∨ (∃ i < 16, ∃ j < 16, ix.toNat = 0x300 + 16 * i + j)
      ∨ (∃ k < 0x180, ∃ o < 8, ix.toNat = 0x400 + 8 * k + o) := by
  have hlt : ix.toNat < 4096 := ix.isLt
  by_cases h1 : ix.toNat < 0x100
  · exact .inl h1
  by_cases h2 : ix.toNat < 0x200
  · exact .inr (.inl ⟨ix.toNat - 0x100, by omega, by omega⟩)
  by_cases h3 : ix.toNat < 0x300
  · exact .inr (.inr (.inl ⟨(ix.toNat - 0x200) / 16, by omega, (ix.toNat - 0x200) % 16, by omega, by omega⟩))
  by_cases h4 : ix.toNat < 0x400
  · exact .inr (.inr (.inr (.inl ⟨(ix.toNat - 0x300) / 16, by omega, (ix.toNat - 0x300) % 16, by omega, by omega⟩)))
  · exact .inr (.inr (.inr (.inr ⟨(ix.toNat - 0x400) / 8, by omega, (ix.toNat - 0x400) % 8, by omega, by omega⟩)))

/-- The two ways in which a test that answers `r'` or goes on can have answered `r`. -/
theorem of_ite_eq_some {c : Prop} [Decidable c] {r r' : Reg} {o : Option Reg} {P : Prop} (hthen : c → r' = r → P)
    (helse : o = some r → P) (h : (if c then some r' else o) = some r) : P := by
  split at h
  · next hc => exact hthen hc (Option.some.inj h)
  · exact helse h

/-- Along the tests of `scalarAt`: each compares the index with that of the register it answers. -/
theorem scalarAt_eq_some {n : Nat} {r : Reg} (h : scalarAt n = some r) : FitsBlock r ∧ n = (regIndex r).toNat := by
  revert h
  unfold scalarAt
  iterate 13 refine of_ite_eq_some (by rintro rfl rfl; exact ⟨trivial, rfl⟩) ?_
  exact nofun

/-- What an index names, for every choice of parameters: a register of the implementation that fits its block, and whose index it is. -/
theorem regAt_eq_some_iff {p : Params} {ix : Index} {r : Reg} :
    regAt p ix = some r ↔ r.wellFormed p = true ∧ FitsBlock r ∧ ix = regIndex r := by
  constructor
  · intro h
    refine ⟨regAt_wellFormed h, ?_⟩
    rw [← BitVec.toNat_inj]
    rcases index_cases ix with hix | ⟨k, hk, hix⟩ | ⟨i, hi, j, hj, hix⟩ | ⟨i, hi, j, hj, hix⟩ | ⟨k, hk, o, ho, hix⟩
    · rw [regAt_scalar hix] at h
      exact scalarAt_eq_some h
    · rw [regAt_keyChar hk hix] at h
      obtain ⟨_, ⟨⟩⟩ := Option.ite_none_right_eq_some.mp h
      exact ⟨hk, hix.trans (regIndex_keyChar_toNat hk).symm⟩
    · rw [regAt_matIn hi hj hix] at h
      obtain ⟨_, ⟨⟩⟩ := Option.ite_none_right_eq_some.mp h
      exact ⟨⟨hi, hj⟩, hix.trans (regIndex_matIn_toNat hi hj).symm⟩
    · rw [regAt_matOut hi hj hix] at h
      obtain ⟨_, ⟨⟩⟩ := Option.ite_none_right_eq_some.mp h
      exact ⟨⟨hi, hj⟩, hix.trans (regIndex_matOut_toNat hi hj).symm⟩
    · rw [regAt_trace ho hix] at h
      obtain ⟨_, hmap⟩ := Option.ite_none_right_eq_some.mp h
      obtain ⟨f, hf, rfl⟩ := Option.map_eq_some_iff.mp hmap
      rw [traceFieldAt_eq_some_iff.mp hf] at hix
      exact ⟨hk, hix.trans (regIndex_trace_toNat f hk).symm⟩
  · rintro ⟨hr, hb, rfl⟩
    cases r with
    | keyChar k =>
      rw [regAt_keyChar hb (regIndex_keyChar_toNat hb), if_pos (of_decide_eq_true hr)]
    | matIn i j =>
      simp only [Reg.wellFormed, Bool.and_eq_true, decide_eq_true_eq] at hr
      rw [regAt_matIn hb.1 hb.2 (regIndex_matIn_toNat hb.1 hb.2), if_pos hr]
    | matOut i j =>
      simp only [Reg.wellFormed, Bool.and_eq_true, decide_eq_true_eq] at hr
      rw [regAt_matOut hb.1 hb.2 (regIndex_matOut_toNat hb.1 hb.2), if_pos hr]
    | trace k f =>
      have ho : traceOffset f < 8 := (traceOffset_lt f).trans (by decide)
      rw [regAt_trace ho (regIndex_trace_toNat f hb), if_pos (of_decide_eq_true hr), traceFieldAt_eq_some_iff.mpr rfl, Option.map_some]
    | cfg | cmd | status | a | b | m | n | keyLen | resG | resX | resY | resV | traceLen => rfl

theorem regAt_regIndex {p : Params} {r : Reg} (hp : p.legal) (hr : r.wellFormed p = true) : regAt p (regIndex r) = some r :=
  regAt_eq_some_iff.mpr ⟨hr, fitsBlock_of_legal hp hr, rfl⟩

theorem regAt_eq_cmd {p : Params} {ix : Index} (h : regAt p ix = some .cmd) : ix = 0x001#12 := (regAt_eq_some_iff.mp h).2.2

/-- The number R23 gives a register of the implementation is a mapped one. -/
theorem mappedIndex_regIndex {p : Params} {r : Reg} (hr : r.wellFormed p = true) (hb : FitsBlock r) :
    MappedIndex p (regIndex r).toNat := by
  cases r with
  | keyChar k => exact .inr (.inl ⟨k, of_decide_eq_true hr, regIndex_keyChar_toNat hb⟩)
  | matIn i j =>
    simp only [Reg.wellFormed, Bool.and_eq_true, decide_eq_true_eq] at hr
    exact .inr (.inr (.inl ⟨i, hr.1, j, hr.2, .inl (regIndex_matIn_toNat hb.1 hb.2)⟩))
  | matOut i j =>
    simp only [Reg.wellFormed, Bool.and_eq_true, decide_eq_true_eq] at hr
    exact .inr (.inr (.inl ⟨i, hr.1, j, hr.2, .inr (regIndex_matOut_toNat hb.1 hb.2)⟩))
  | trace k f =>
    exact .inr (.inr (.inr ⟨k, of_decide_eq_true hr, traceOffset f, traceOffset_lt f, regIndex_trace_toNat f hb⟩))
  | cfg | cmd | status | a | b | m | n | keyLen | resG | resX | resY | resV | traceLen => exact .inl (by decide)

/-- Each of R23's scalar numbers names a register. -/
theorem scalarAt_isSome_of_mem :
    ∀ n ∈ [0x000, 0x001, 0x002, 0x010, 0x011, 0x012, 0x013, 0x014, 0x040, 0x041, 0x042, 0x043, 0x044],
      n < 0x100 ∧ (scalarAt n).isSome = true := by decide

theorem regAt_isSome_of_mapped {p : Params} {ix : Index} (hp : p.legal) (h : MappedIndex p ix.toNat) : (regAt p ix).isSome = true := by
  obtain ⟨_, _, _, hn, _, _⟩ := hp
  have hsq : p.nmax * p.nmax ≤ 15 * 15 := Nat.mul_le_mul hn hn
  rcases h with h | ⟨k, hk, h⟩ | ⟨i, hi, j, hj, h | h⟩ | ⟨k, hk, o, ho, h⟩
  · obtain ⟨hlt, hsome⟩ := scalarAt_isSome_of_mem _ h
    rwa [regAt_scalar hlt]
  · rw [regAt_keyChar (by omega) h, if_pos hk]; rfl
  · rw [regAt_matIn (by omega) (by omega) h, if_pos ⟨hi, hj⟩]; rfl
  · rw [regAt_matOut (by omega) (by omega) h, if_pos ⟨hi, hj⟩]; rfl
  · rw [regAt_trace (by omega) h, if_pos hk, Option.isSome_map]
    exact (by decide : ∀ o < 6, (traceFieldAt o).isSome = true) o ho

/-- Settles O22: the register an index names has R23's number, and R23's numbers each name one. -/
theorem registerMapCoversItsIndices : Obligations.RegisterMapCoversItsIndices := by
  intro p ix hp
  refine ⟨fun h => ?_, regAt_isSome_of_mapped hp⟩
  obtain ⟨r, hr⟩ := Option.isSome_iff_exists.mp h
  obtain ⟨hwf, hb, rfl⟩ := regAt_eq_some_iff.mp hr
  exact mappedIndex_regIndex hwf hb

/-- Settles O23: `regAt` and `regIndex` are inverse (`regAt_eq_some_iff`), and no number of R23 exceeds 12 bits. -/
theorem registerMapIsOneToOne : Obligations.RegisterMapIsOneToOne := by
  refine ⟨fun p r ix hp hr => ?_, by decide, by decide, by decide, fun p hp => ⟨fun k hk => ?_, fun i hi j hj => ?_, fun k hk => ?_⟩⟩
  · exact ⟨fun h => (regAt_eq_some_iff.mp h).2.2, fun h => h ▸ regAt_regIndex hp hr⟩
  · exact regIndex_keyChar_toNat (fitsBlock_of_legal (r := .keyChar k) hp (decide_eq_true hk))
  · have hi' : i < 16 := by omega
    have hj' : j < 16 := by omega
    exact ⟨regIndex_matIn_toNat hi' hj', regIndex_matOut_toNat hi' hj'⟩
  · have hk' : k < 0x180 := by omega
    exact ⟨regIndex_trace_toNat .idx hk', regIndex_trace_toNat .qv hk', regIndex_trace_toNat .rem hk', regIndex_trace_toNat .q hk',
      regIndex_trace_toNat .x hk', regIndex_trace_toNat .y hk'⟩

/-! ## Transactions (R44 to R47) -/

/-- A write where the host has no right to write, or nothing is mapped, does nothing (R44, R45). -/
theorem hostWrite_of_not_writable {s : State} {ix : Index} (d : PortWord) (h : ∀ r, regAt s.cfg ix = some r → regAccess r = .ro) :
    hostWrite ix d s = s := by
  unfold hostWrite
  split
  · rfl
  · next r hr => rw [h r hr]

/-- A write of any other register while busy is dropped (R46, R204). -/
theorem hostWrite_of_busy {s : State} {ix : Index} {r : Reg} (d : PortWord) (hr : regAt s.cfg ix = some r) (ha : regAccess r ≠ .ro)
    (hbusy : s.status.busy = true) : hostWrite ix d s = reject s := by
  unfold hostWrite
  simp only [hr, hbusy, if_true]
  cases h : regAccess r with
  | ro => exact absurd h ha
  | rc | rw => rfl

/-- A write of an RW register while idle stores (R46). -/
theorem hostWrite_of_idle {s : State} {ix : Index} {r : Reg} (d : PortWord) (hr : regAt s.cfg ix = some r) (ha : regAccess r = .rw)
    (hidle : s.status.busy = false) : hostWrite ix d s = storeOperand r d s := by
  unfold hostWrite
  simp [hr, ha, hidle]

theorem regAt_eq_none_of_unmapped {p : Params} {ix : Index} (hp : p.legal) (h : ¬MappedIndex p ix.toNat) : regAt p ix = none := by
  rw [← Option.not_isSome_iff_eq_none]
  exact fun hs => h ((registerMapCoversItsIndices p ix hp).mp hs)

/-- Settles O24: an unmapped index names no register. -/
theorem unmappedIndexReadsZeroIgnoresWrites : Obligations.UnmappedIndexReadsZeroIgnoresWrites := by
  intro s ix d hp h
  have hnone := regAt_eq_none_of_unmapped hp h
  refine ⟨hostWrite_of_not_writable d fun r hr => ?_, ?_⟩
  · rw [hnone] at hr; contradiction
  · unfold hostRead; rw [hnone]; rfl

/-- The registers below 0x300 that a read-only index can name are those R23 marks RO, and all from 0x300 on are RO. -/
theorem regAccess_of_readOnlyIndex {p : Params} {ix : Index} {r : Reg} (h : ReadOnlyIndex ix.toNat) (hr : regAt p ix = some r) :
    regAccess r = .ro := by
  obtain ⟨_, hb, rfl⟩ := regAt_eq_some_iff.mp hr
  cases r with
  | keyChar k =>
    rw [regIndex_keyChar_toNat hb] at h
    simp only [ReadOnlyIndex, FitsBlock] at h hb
    omega
  | matIn i j =>
    rw [regIndex_matIn_toNat hb.1 hb.2] at h
    simp only [ReadOnlyIndex, FitsBlock] at h hb
    omega
  | cmd | a | b | m | n | keyLen => simp [ReadOnlyIndex, regIndex] at h
  | cfg | status | resG | resX | resY | resV | traceLen | matOut | trace => rfl

/-- Settles O25: at a read-only index stands a register the host may not write, or none. -/
theorem readOnlyRegisterIgnoresWrites : Obligations.ReadOnlyRegisterIgnoresWrites :=
  fun _ _ d h => hostWrite_of_not_writable d fun _ hr => regAccess_of_readOnlyIndex h hr

theorem readableWhileBusy_iff {r : Reg} : readableWhileBusy r = true ↔ r ∈ [Reg.cfg, .cmd, .status] := by
  cases r <;> simp [readableWhileBusy]

/-- Settles O27, by cases of what a read can do (`hostRead_cases`). -/
theorem readReturnsValueOrFreeWord : Obligations.ReadReturnsValueOrFreeWord := by
  intro s ix r hr
  rw [← readableWhileBusy_iff]
  rcases hostRead_cases ix s with ⟨hnone, _⟩ | ⟨r', hr', hread, h⟩ | ⟨r', hr', hbusy, hfree, h⟩
  · rw [hr] at hnone; contradiction
  · obtain rfl : r = r' := Option.some.inj (hr.symm.trans hr')
    refine ⟨fun _ => h, fun hb hn => ?_⟩
    rcases hread with hidle | hv
    · rw [hb] at hidle; contradiction
    · exact absurd hv hn
  · obtain rfl : r = r' := Option.some.inj (hr.symm.trans hr')
    refine ⟨fun hv => ?_, fun _ _ => ⟨freeRead s.env.draws, h⟩⟩
    simp [hbusy, hfree] at hv

/-! ## Operand writes (R46, R72): each operand register after a write of any register -/

@[simp] theorem writeOperand_a (w : Nat) (o : Operands) (r : Reg) (d : PortWord) :
    (writeOperand w o r d).a = if r = .a then narrowSigned w d else o.a := by cases r <;> rfl

@[simp] theorem writeOperand_b (w : Nat) (o : Operands) (r : Reg) (d : PortWord) :
    (writeOperand w o r d).b = if r = .b then narrowSigned w d else o.b := by cases r <;> rfl

@[simp] theorem writeOperand_m (w : Nat) (o : Operands) (r : Reg) (d : PortWord) :
    (writeOperand w o r d).m = if r = .m then narrowSigned w d else o.m := by cases r <;> rfl

@[simp] theorem writeOperand_n (w : Nat) (o : Operands) (r : Reg) (d : PortWord) :
    (writeOperand w o r d).n = if r = .n then d.setWidth 8 else o.n := by cases r <;> rfl

@[simp] theorem writeOperand_keyLen (w : Nat) (o : Operands) (r : Reg) (d : PortWord) :
    (writeOperand w o r d).keyLen = if r = .keyLen then d.setWidth 8 else o.keyLen := by cases r <;> rfl

theorem writeOperand_keyChar {p : Params} {o : Operands} {r : Reg} (d : PortWord) (ho : o.wf p) (hr : r.wellFormed p = true) (k : Nat) :
    (writeOperand p.w o r d).keyChar.getD k 0#8 = if r = .keyChar k then d.setWidth 8 else o.keyChar.getD k 0#8 := by
  cases r with
  | keyChar k' =>
    have hlt : k' < o.keyChar.length := ho.keyChar ▸ of_decide_eq_true hr
    by_cases hk : k' = k
    · subst hk; simp [writeOperand, hlt]
    · simp [writeOperand, hk]
  | cfg | cmd | status | a | b | m | n | keyLen | resG | resX | resY | resV | traceLen | matIn | matOut | trace => rfl

theorem writeOperand_matIn {p : Params} {o : Operands} {r : Reg} (d : PortWord) (ho : o.wf p) (hr : r.wellFormed p = true) (i j : Nat) :
    gridEntry (writeOperand p.w o r d).matIn i j = if r = .matIn i j then narrowSigned p.w d else gridEntry o.matIn i j := by
  cases r with
  | matIn i' j' =>
    simp only [Reg.wellFormed, Bool.and_eq_true, decide_eq_true_eq] at hr
    simp only [writeOperand, gridEntry_gridSet ho.matIn _ hr.1 hr.2, Reg.matIn.injEq, eq_comm]
  | cfg | cmd | status | a | b | m | n | keyLen | resG | resX | resY | resV | traceLen | keyChar | matOut | trace => rfl

/-- A signed register reads after a write as the bits its width kept, sign-extended (R72, R73). -/
theorem widenSigned_narrowSigned (w : Nat) (d : PortWord) : widenSigned (narrowSigned w d) = (d.setWidth w).signExtend 64 := rfl

section Store

variable {s : State} {r : Reg} (d : PortWord)

theorem readReg_storeOperand_same (hs : s.wf) (hr : r.wellFormed s.cfg = true) (ha : regAccess r = .rw) :
    readReg (storeOperand r d s) r = storedWord s.cfg r d := by
  cases r with
  | a | b | m | n | keyLen => rfl
  | keyChar k => simp [readReg, storedWord, writeOperand_keyChar d hs.ops hr, -List.getD_eq_getElem?_getD]
  | matIn i j => simp [readReg, storedWord, writeOperand_matIn d hs.ops hr, widenSigned_narrowSigned]
  | cfg | cmd | status | resG | resX | resY | resV | traceLen | matOut | trace => contradiction

theorem readReg_storeOperand_other (hs : s.wf) (hr : r.wellFormed s.cfg = true) {r' : Reg} (hne : r' ≠ r) :
    readReg (storeOperand r d s) r' = readReg s r' := by
  have hne' := hne.symm
  cases r' with
  | a | b | m | n | keyLen => simp [readReg, hne']
  | keyChar k => simp [readReg, writeOperand_keyChar d hs.ops hr, hne', -List.getD_eq_getElem?_getD]
  | matIn i j => simp [readReg, writeOperand_matIn d hs.ops hr, hne']
  | cfg | cmd | status | resG | resX | resY | resV | traceLen | matOut | trace => rfl

end Store

/-- Settles O26: the write is a store while idle and a rejection while busy. -/
theorem operandWriteStoresOrIsDropped : Obligations.OperandWriteStoresOrIsDropped := by
  intro s r d hs hr hrw
  have ha : regAccess r = .rw := by
    rcases hrw with ⟨k, rfl⟩ | ⟨i, j, rfl⟩ | hmem
    · rfl
    · rfl
    · exact (by decide : ∀ r ∈ [Reg.a, .b, .m, .n, .keyLen], regAccess r = .rw) r hmem
  have hat := regAt_regIndex hs.cfg hr
  refine ⟨fun hidle => ?_, fun hbusy => hostWrite_of_busy d hat (by simp [ha]) hbusy⟩
  rw [hostWrite_of_idle d hat ha hidle]
  exact ⟨readReg_storeOperand_same d hs hr ha, fun r' _ hne => readReg_storeOperand_other d hs hr hne, rfl⟩

/-! ## What a step does to `STATUS` and `CFG` -/

/-- All that a write can do to `STATUS` (R46, R203, R204). -/
theorem hostWrite_status_cases (ix : Index) (d : PortWord) (s : State) :
    (hostWrite ix d s).status = s.status
      ∨ (s.status.busy = true ∧ (∃ r, regAt s.cfg ix = some r ∧ regAccess r ≠ .ro) ∧ (hostWrite ix d s).status = s.status.rejected)
      ∨ (s.status.busy = false ∧ ix = 0x001#12 ∧ (hostWrite ix d s).status = Status.accepted) := by
  by_cases hro : ∀ r, regAt s.cfg ix = some r → regAccess r = .ro
  · exact .inl (by rw [hostWrite_of_not_writable d hro])
  · rcases hostWrite_cases ix d s with h | ⟨hbusy, h⟩ | ⟨hidle, hcmd, h⟩ | ⟨_, r, _, _, h⟩ <;> rw [h]
    · exact .inl rfl
    · exact .inr (.inl ⟨hbusy, by simpa using hro, rfl⟩)
    · exact .inr (.inr ⟨hidle, regAt_eq_cmd hcmd, rfl⟩)
    · exact .inl rfl

/-- A completion ends the command and leaves `REJ` alone (R206, R207). -/
theorem exec_status {i : Instr} {s t : State} (h : exec i s = .next t) : t.status.busy = false ∧ t.status.rej = s.status.rej := by
  rcases exec_cases h with ⟨_, _, _, hst⟩ | ⟨c, rfl⟩
  · rw [hst]; exact ⟨rfl, rfl⟩
  · exact ⟨rfl, rfl⟩

/-- All that a step can do to `STATUS`: complete, reset, drop a write, accept a command, or leave it. -/
theorem step_status_cases {s t : State} (h : step s = .next t) :
    (nextMove s = .completion ∧ t.status.busy = false ∧ t.status.rej = s.status.rej)
      ∨ (nextMove s = .reset ∧ t.status = Status.idle)
      ∨ (s.status.busy = true ∧ t.status = s.status.rejected
          ∧ ∃ ix d r, nextMove s = .transaction (.wr ix d) ∧ regAt s.cfg ix = some r ∧ regAccess r ≠ .ro)
      ∨ (s.status.busy = false ∧ t.status = Status.accepted ∧ ∃ d, nextMove s = .transaction (.wr 0x001#12 d))
      ∨ t.status = s.status := by
  rcases step_cases h with ⟨hm, _, ⟨i, _, hx⟩ | ⟨e, _, rfl⟩⟩ | ⟨op, hm, rfl⟩ | ⟨hm, rfl⟩ | ⟨_, rfl⟩
  · have hst := exec_status hx
    exact .inl ⟨hm, hst⟩
  · exact .inl ⟨hm, rfl, rfl⟩
  · rcases hostStep_cases op (popTurn s) with ⟨ix, d, rfl, hw⟩ | ⟨_, _, hst, _, _⟩
    · rw [hw]
      rcases hostWrite_status_cases ix d (popOp (popTurn s)) with hst | ⟨hbusy, ⟨r, hr, ha⟩, hst⟩ | ⟨hidle, rfl, hst⟩
      · exact .inr (.inr (.inr (.inr hst)))
      · exact .inr (.inr (.inl ⟨hbusy, hst, ix, d, r, hm, hr, ha⟩))
      · exact .inr (.inr (.inr (.inl ⟨hidle, hst, d, hm⟩)))
    · exact .inr (.inr (.inr (.inr hst)))
  · exact .inr (.inl ⟨hm, rfl⟩)
  · exact .inr (.inr (.inr (.inr rfl)))

/-- Settles O10, by cases of what a step can do to `STATUS` (`step_status_cases`). -/
theorem busyFromAcceptanceToCompletion : Obligations.BusyFromAcceptanceToCompletion := by
  intro s t h
  rcases step_status_cases h with ⟨hm, hb, _⟩ | ⟨hm, hst⟩ | ⟨hbusy, hst, _⟩ | ⟨hidle, _, hwr⟩ | hst
  · exact ⟨by simp [hb], fun _ _ => .inl hm⟩
  · exact ⟨by simp [hst], fun _ _ => .inr hm⟩
  · simp [hst, hbusy]
  · exact ⟨fun _ _ => hwr, by simp [hidle]⟩
  · simp +contextual [hst]

/-- Settles O11, by cases of what a step can do to `STATUS` (`step_status_cases`). -/
theorem rejectionIsSticky : Obligations.RejectionIsSticky := by
  intro s t h
  rcases step_status_cases h with ⟨_, _, hrej⟩ | ⟨hm, hst⟩ | ⟨hbusy, hst, hwr⟩ | ⟨hidle, hst, hwr⟩ | hst
  · simp +contextual [hrej]
  · exact ⟨by simp [hst], fun _ _ => .inl hm⟩
  · exact ⟨fun _ _ => ⟨hbusy, hwr⟩, by simp [hst]⟩
  · exact ⟨by simp [hst], fun _ _ => .inr ⟨hidle, hwr⟩⟩
  · simp +contextual [hst]

/-- No step changes the parameters (R9, R24). -/
theorem step_cfg {s t : State} (h : step s = .next t) : t.cfg = s.cfg := by
  rcases step_cases h with ⟨_, _, ⟨i, _, hx⟩ | ⟨e, _, rfl⟩⟩ | ⟨op, _, rfl⟩ | ⟨_, rfl⟩ | ⟨_, rfl⟩
  · rcases exec_cases hx with ⟨hcfg, _⟩ | ⟨c, rfl⟩
    · exact hcfg
    · rfl
  · rfl
  · rcases hostStep_cases op (popTurn s) with ⟨ix, d, _, hw⟩ | ⟨hcfg, _⟩
    · rw [hw, hostWrite_cfg]; rfl
    · exact hcfg
  · rfl
  · rfl

/-! ## The words of `CFG` and `STATUS` (R24, R26) -/

/-- Fields side by side: the upper one counts in units of the lower one's range. -/
theorem toNat_append_eq_add {m n : Nat} (x : BitVec m) (y : BitVec n) : (x ++ y).toNat = 2 ^ n * x.toNat + y.toNat := by
  rw [BitVec.toNat_append, ← Nat.shiftLeft_add_eq_or_of_lt y.isLt, Nat.shiftLeft_eq, Nat.mul_comm]

theorem cfgWord_toNat {p : Params} (hp : p.legal) : (cfgWord p).toNat = p.w + 2 ^ 8 * p.nmax + 2 ^ 16 * p.traceDepth := by
  obtain ⟨_, hw, _, hn, _, hd⟩ := hp
  simp only [cfgWord, toNat_append_eq_add, BitVec.toNat_ofNat]
  omega

/-- Settles O29: each parameter is below its field's range, and every step keeps them (`step_cfg`). -/
theorem cfgReportsConstantParameters : Obligations.CfgReportsConstantParameters := by
  intro s hp
  refine ⟨?_, fun t => step_cfg⟩
  rw [← cfgWord_toNat hp]
  exact BitVec.toNat_setWidth_of_le (by decide)

theorem status_word_toNat (st : Status) :
    st.word.toNat
      = st.busy.toNat + 2 * st.done.toNat + 4 * st.err.toNat + 8 * st.rej.toNat + 2 ^ 8 * st.errcode.bits.toNat := by
  simp only [Status.word, toNat_append_eq_add, BitVec.toNat_ofBool, BitVec.toNat_ofNat]
  omega

/-- Settles O30: the word's fields are those of `STATUS`, and the code's bits are R200's number. -/
theorem statusReportsItsFields : Obligations.StatusReportsItsFields := by
  intro s
  have hword : (readReg s .status).toNat = s.status.word.toNat := BitVec.toNat_setWidth_of_le (by decide)
  rw [hword, status_word_toNat]
  cases s.status.errcode <;> rfl

end Sys2Proof.Machine
end

section
/-! PROOFS. O12, O28, O56 and O57: on the host's turn a step is the operation next in its program; what a step that is no completion and no
reset leaves alone; the width and the sign with which each register reads. -/

namespace Sys2Proof.Machine

/-! ## The host's turn (R71, R78, R101) -/

theorem nextMove_of_hostTurn {s : State} {op : HostOp} {rest : List HostOp} (h : HostTurn s op rest) : nextMove s = .transaction op := by
  obtain ⟨hprog, ⟨hidle, hturns⟩ | ⟨ts, hturns⟩⟩ := h
  · simp [nextMove, hostMove, hturns, hidle, hprog]
  · simp [nextMove, hostMove, hturns, hprog]

theorem step_of_hostTurn {s : State} {op : HostOp} {rest : List HostOp} (h : HostTurn s op rest) :
    step s = .next (hostStep op (popTurn s)) := by
  rw [step, nextMove_of_hostTurn h]

theorem popOp_popTurn_of_hostTurn {s : State} {op : HostOp} {rest : List HostOp} (h : HostTurn s op rest) :
    popOp (popTurn s) = { s with env := afterHost s.env rest } := by
  simp [popOp, popTurn, afterHost, h.1]

/-- `WAIT` reads `STATUS`, and goes past exactly when `BUSY` = 0 (R101). -/
theorem hostStep_wait (s : State) :
    hostStep .wait s = hostRead (regIndex .status) (if s.status.busy then s else popOp s) := by
  rw [hostStep, readReg_status_bit0]
  split <;> rfl

/-- Settles O56: the step is the host's step of the operation next in its program (`step_of_hostTurn`). -/
theorem hostTurnPerformsTheTransaction : Obligations.HostTurnPerformsTheTransaction := by
  intro s rest
  refine ⟨fun ix d h => ?_, fun ix h => ?_, fun h hidle => ?_, fun h hbusy => ?_⟩
  · rw [step_of_hostTurn h, hostStep, popOp_popTurn_of_hostTurn h]
  · rw [step_of_hostTurn h, hostStep, popOp_popTurn_of_hostTurn h]
  · rw [step_of_hostTurn h, hostStep_wait, popTurn_status, hidle, popOp_popTurn_of_hostTurn h]; rfl
  · rw [step_of_hostTurn h, hostStep_wait, popTurn_status, hbusy]; rfl

/-! ## Steps that are no completion and no reset (R78, R81, R219) -/

/-- All that a step other than a completion and a reset can do to the hardware: what one write does, or nothing. -/
theorem step_cases_of_no_completion_no_reset {s t : State} (h : step s = .next t) (hc : nextMove s ≠ .completion)
    (hr : nextMove s ≠ .reset) :
    (∃ ix d, nextMove s = .transaction (.wr ix d) ∧ t = hostWrite ix d (popOp (popTurn s)))
      ∨ (t.cfg = s.cfg ∧ t.cmd = s.cmd ∧ t.status = s.status ∧ t.ops = s.ops ∧ t.res = s.res) := by
  rcases step_cases h with ⟨hm, _⟩ | ⟨op, hm, rfl⟩ | ⟨hm, _⟩ | ⟨_, rfl⟩
  · exact absurd hm hc
  · rcases hostStep_cases op (popTurn s) with ⟨ix, d, rfl, hw⟩ | hframe
    · exact .inl ⟨ix, d, hm, hw⟩
    · exact .inr hframe
  · exact absurd hm hr
  · exact .inr ⟨rfl, rfl, rfl, rfl, rfl⟩

/-- A write changes `CMD` only by an acceptance (R46, R203). -/
theorem hostWrite_cmd_ne {ix : Index} {d : PortWord} {s : State} (h : (hostWrite ix d s).cmd ≠ s.cmd) :
    s.status.busy = false ∧ ix = 0x001#12 := by
  rcases hostWrite_cases ix d s with hw | ⟨_, hw⟩ | ⟨hidle, hcmd, _⟩ | ⟨_, r, _, _, hw⟩
  · rw [hw] at h; contradiction
  · rw [hw] at h; contradiction
  · exact ⟨hidle, regAt_eq_cmd hcmd⟩
  · rw [hw] at h; contradiction

/-- A write changes an operand register only by a store while idle (R46). -/
theorem hostWrite_ops_ne {ix : Index} {d : PortWord} {s : State} (h : (hostWrite ix d s).ops ≠ s.ops) :
    s.status.busy = false ∧ ∃ r, regAt s.cfg ix = some r ∧ regAccess r = .rw := by
  rcases hostWrite_cases ix d s with hw | ⟨_, hw⟩ | ⟨_, _, hw⟩ | ⟨hidle, r, hr, ha, _⟩
  · rw [hw] at h; contradiction
  · rw [hw] at h; contradiction
  · rw [hw] at h; contradiction
  · exact ⟨hidle, r, hr, ha⟩

/-- Settles O57: such a step does what one write does, or nothing (`step_cases_of_no_completion_no_reset`). -/
theorem resultsChangeOnlyByCompletionOrReset : Obligations.ResultsChangeOnlyByCompletionOrReset := by
  intro s t h hc hr
  rcases step_cases_of_no_completion_no_reset h hc hr with ⟨ix, d, hm, rfl⟩ | ⟨hcfg, hcmd, _, hops, hres⟩
  · refine ⟨hostWrite_res ix d _, hostWrite_cfg ix d _, fun hne => ?_, fun hne => ?_⟩
    · obtain ⟨hidle, rfl⟩ := hostWrite_cmd_ne hne
      exact ⟨hidle, d, hm⟩
    · obtain ⟨hidle, r, hat, ha⟩ := hostWrite_ops_ne hne
      exact ⟨hidle, ix, d, r, hm, hat, ha⟩
  · exact ⟨hres, hcfg, fun hne => absurd hcmd hne, fun hne => absurd hops hne⟩

/-- Settles O12: a change of `CMD` or of an operand would need an idle machine (O57), and only a completion or reset ends `BUSY` (O10). -/
theorem commandInProgressIsUndisturbed : Obligations.CommandInProgressIsUndisturbed := by
  intro s t h hbusy hc hr
  obtain ⟨hres, hcfg, hcmd, hops⟩ := resultsChangeOnlyByCompletionOrReset s t h hc hr
  have not_idle : s.status.busy ≠ false := by simp [hbusy]
  refine ⟨of_not_not fun hne => not_idle (hcmd hne).1, of_not_not fun hne => not_idle (hops hne).1, hres, hcfg, ?_⟩
  by_contra hend
  rcases (busyFromAcceptanceToCompletion s t h).2 hbusy (by simpa using hend) with hm | hm
  · exact hc hm
  · exact hr hm

/-! ## Read widening (R73) -/

/-- A value that fits a signed register reads as the register's bits, sign-extended. -/
theorem widenSigned_eq_signExtend {w : Nat} {v : Int} (hw : 0 < w) (hv : fitsSigned w v) :
    widenSigned v = (BitVec.ofInt w v).signExtend 64 := by
  rw [widenSigned, BitVec.signExtend, BitVec.toInt_ofInt_eq_self hw hv.1 hv.2]

theorem gridEntry_fits {nmax w : Nat} {g : Grid} (hg : gridWf nmax w g) {i j : Nat} (hi : i < nmax) (hj : j < nmax) :
    fitsSigned w (gridEntry g i j) := by
  obtain ⟨hlen, hrows⟩ := hg
  have hi' : i < g.length := hlen ▸ hi
  obtain ⟨hrow, hval⟩ := hrows g[i] (List.getElem_mem hi')
  have hj' : j < g[i].length := hrow ▸ hj
  have hentry : gridEntry g i j = g[i][j] := by simp [gridEntry, hi', hj']
  exact hentry ▸ hval _ (List.getElem_mem hj')

theorem readReg_trace {s : State} {k : Nat} {row : TraceRow} (hrow : s.res.trace[k]? = some row) (f : TraceField) :
    readReg s (.trace k f) = readTrace row f := by
  simp [readReg, hrow]

theorem readTrace_qv (row : TraceRow) : readTrace row .qv = BitVec.ofNat 64 row.qv.toNat := by
  rw [readTrace, ← BitVec.ofNat_toNat, BitVec.toNat_ofBool]

/-- Settles O28: every signed register holds a value that fits it (`State.wf`), so widening the value is sign-extending its bits. -/
theorem readWidensBySignedness : Obligations.ReadWidensBySignedness := by
  intro s hs
  obtain ⟨hcfg, _, hops, hres⟩ := hs
  have hw : 0 < s.cfg.w := Nat.zero_lt_of_lt hcfg.1
  have hxw : 0 < s.cfg.w + 1 := Nat.succ_pos _
  have zero_extended {n : Nat} (x : BitVec n) : x.setWidth 64 = BitVec.ofNat 64 x.toNat := (BitVec.ofNat_toNat 64 x).symm
  refine ⟨fun r v hmem => ?_, fun r v hmem => ?_, fun i hi j hj => ⟨?_, ?_⟩, fun k _ => zero_extended _, fun k _ row hrow => ?_,
    zero_extended _, zero_extended _, zero_extended _, zero_extended _⟩
  · simp only [List.mem_cons, Prod.mk.injEq, List.not_mem_nil, or_false] at hmem
    rcases hmem with ⟨rfl, rfl⟩ | ⟨rfl, rfl⟩ | ⟨rfl, rfl⟩ | ⟨rfl, rfl⟩ | ⟨rfl, rfl⟩
    · exact widenSigned_eq_signExtend hw hops.a
    · exact widenSigned_eq_signExtend hw hops.b
    · exact widenSigned_eq_signExtend hw hops.m
    · exact widenSigned_eq_signExtend hw hres.g
    · exact widenSigned_eq_signExtend hw hres.v
  · simp only [List.mem_cons, Prod.mk.injEq, List.not_mem_nil, or_false] at hmem
    rcases hmem with ⟨rfl, rfl⟩ | ⟨rfl, rfl⟩
    · exact widenSigned_eq_signExtend hxw hres.x
    · exact widenSigned_eq_signExtend hxw hres.y
  · exact widenSigned_eq_signExtend hw (gridEntry_fits hops.matIn hi hj)
  · exact widenSigned_eq_signExtend hw (gridEntry_fits hres.matOut hi hj)
  · obtain ⟨hrem, hq, hx, hy⟩ := hres.rows row (List.mem_of_getElem? hrow)
    simp only [readReg_trace hrow]
    exact ⟨zero_extended _, readTrace_qv row, widenSigned_eq_signExtend hw hrem, widenSigned_eq_signExtend hxw hq,
      widenSigned_eq_signExtend hxw hx, widenSigned_eq_signExtend hxw hy⟩

end Sys2Proof.Machine
end

section
/-! PROOFS. O1, O2 and O4: the command word is its two fields, the decoder is the inverse of the encoder, and every word it rejects ends in
`ILLEGAL_CMD`. -/

namespace Sys2Proof.Machine

/-! ## The command word (R90 to R92) -/

theorem rsvField_toNat (w : CmdWord) : (rsvField w).toNat = w.toNat / 256 := by
  have hlt : w.toNat < 2 ^ 32 := w.isLt
  simp only [rsvField, BitVec.extractLsb'_toNat, Nat.shiftRight_eq_div_pow]
  omega

theorem opField_toNat (w : CmdWord) : (opField w).toNat = w.toNat % 256 := by
  simp [opField, BitVec.extractLsb'_toNat]

theorem encode_toNat (i : Instr) : (encode i).toNat = (opcode i).toNat :=
  (toNat_append_eq_add 0#24 (opcode i)).trans (by simp)

theorem opcode_toNat_lt (i : Instr) : (opcode i).toNat < 256 := (opcode i).isLt

/-- No reserved bit is set exactly in the words below 256. -/
theorem rsvField_eq_zero_iff {w : CmdWord} : rsvField w = 0#24 ↔ w.toNat < 256 := by
  rw [← BitVec.toNat_inj, rsvField_toNat, BitVec.toNat_zero]
  omega

/-- The encoding of a command is the word with no reserved bit set and its opcode in the low byte. -/
theorem eq_encode_iff {w : CmdWord} {i : Instr} : w = encode i ↔ rsvField w = 0#24 ∧ opField w = opcode i := by
  have hop := opcode_toNat_lt i
  rw [rsvField_eq_zero_iff, ← BitVec.toNat_inj, ← BitVec.toNat_inj, encode_toNat, opField_toNat]
  omega

/-! ## The decoder (R91, R93, R208) -/

/-- The opcode table is one-to-one: an opcode selects the command it is the opcode of. -/
theorem decodeOp_eq_some_iff {op : BitVec 8} {i : Instr} : decodeOp op = some i ↔ op = opcode i := by
  constructor
  · intro h
    unfold decodeOp at h
    split_ifs at h <;> cases h <;> assumption
  · rintro rfl
    cases i <;> rfl

theorem decode_of_reserved {w : CmdWord} (h : rsvField w ≠ 0#24) : decode w = .error .reservedBits := if_pos h

theorem decode_of_opcode {w : CmdWord} {i : Instr} (h : rsvField w = 0#24) (hop : decodeOp (opField w) = some i) :
    decode w = .ok i := by
  simp [decode, h, hop]

theorem decode_of_no_opcode {w : CmdWord} (h : rsvField w = 0#24) (hop : decodeOp (opField w) = none) :
    decode w = .error .unassignedOpcode := by
  simp [decode, h, hop]

theorem decode_eq_ok_iff {w : CmdWord} {i : Instr} : decode w = .ok i ↔ w = encode i := by
  rw [eq_encode_iff, ← decodeOp_eq_some_iff]
  by_cases hrsv : rsvField w = 0#24
  · cases hop : decodeOp (opField w) with
    | some j => simp [decode_of_opcode hrsv hop, hrsv]
    | none => simp [decode_of_no_opcode hrsv hop]
  · simp [decode_of_reserved hrsv, hrsv]

theorem decode_encode (i : Instr) : decode (encode i) = .ok i := decode_eq_ok_iff.mpr rfl

/-- A word that encodes no command is rejected by the first of R208's checks that applies. -/
theorem decode_of_not_encode {w : CmdWord} (h : ∀ i, w ≠ encode i) :
    decode w = .error (if w.toNat < 256 then .unassignedOpcode else .reservedBits) := by
  by_cases hrsv : rsvField w = 0#24
  · rw [if_pos (rsvField_eq_zero_iff.mp hrsv)]
    refine decode_of_no_opcode hrsv (Option.eq_none_iff_forall_ne_some.mpr fun i hi => h i ?_)
    exact eq_encode_iff.mpr ⟨hrsv, decodeOp_eq_some_iff.mp hi⟩
  · rw [if_neg (mt rsvField_eq_zero_iff.mpr hrsv), decode_of_reserved hrsv]

/-- Settles O2: a word is its reserved bits and its opcode (`eq_encode_iff`), and the opcode table is one-to-one (`decodeOp_eq_some_iff`). -/
theorem decodeInvertsEncode : Obligations.DecodeInvertsEncode :=
  ⟨fun _ _ => decode_eq_ok_iff, fun _ => decode_of_not_encode⟩

/-- Settles O1: each word of R91's table is the encoding of its command. -/
theorem commandWordsDecode : Obligations.CommandWordsDecode :=
  ⟨decode_encode .extgcd, decode_encode .modinv, decode_encode .gfadd, decode_encode .gfsub, decode_encode .gfmul,
    decode_encode .gfinv, decode_encode .gfdiv, decode_encode .detmod, decode_encode .matinv, decode_encode .matkey⟩

/-! ## The engine's turn (R205, R208) -/

theorem nextMove_of_engineTurn {s : State} (h : EngineTurn s) : nextMove s = .completion := by
  obtain ⟨hbusy, hturns | ⟨ts, hturns⟩⟩ := h <;> simp [nextMove, engineMove, hturns, hbusy]

theorem step_of_engineTurn {s : State} (h : EngineTurn s) : step s = completionStep (popTurn s) := by
  rw [step, nextMove_of_engineTurn h]

theorem opcode_mem_table (i : Instr) :
    (opcode i).toNat ∈ [0x01, 0x02, 0x10, 0x11, 0x12, 0x13, 0x14, 0x20, 0x21, 0x22] := by
  cases i <;> decide

/-- Settles O4: such a word is the encoding of no command, so the decoder rejects it (`decode_of_not_encode`). -/
theorem illegalWordEndsInIllegalCmd : Obligations.IllegalWordEndsInIllegalCmd := by
  intro s hturn hword
  have hne : ∀ i, s.cmd ≠ encode i := by
    intro i hi
    have hlt := opcode_toNat_lt i
    rw [hi, encode_toNat] at hword
    rcases hword with hrsv | hop
    · omega
    · rw [Nat.mod_eq_of_lt hlt] at hop
      exact hop (opcode_mem_table i)
  rw [step_of_engineTurn hturn, completionStep, popTurn_cmd, decode_of_not_encode hne]
  rfl

end Sys2Proof.Machine
end

section
/-! PROOFS. O13: `WAIT`, along the host turns before the completion and the poll after it. -/

namespace Sys2Proof.Machine

/-! ## Runs -/

theorem run_zero (s : State) : Host.Core.run Sys2Proof.core 0 s = .next s := rfl

theorem run_succ {s t : State} (k : Nat) (h : step s = .next t) :
    Host.Core.run Sys2Proof.core (k + 1) s = Host.Core.run Sys2Proof.core k t := by
  have hcore : Sys2Proof.core.step s = .next t := h
  simp only [Host.Core.run, hcore]

/-! ## A poll and a completion -/

/-- A read adds one word to those the host has received, and leaves its program and the schedule alone. -/
theorem hostRead_env (ix : Index) (s : State) :
    (hostRead ix s).env.program = s.env.program ∧ (hostRead ix s).env.turns = s.env.turns
      ∧ (hostRead ix s).env.reads.length = s.env.reads.length + 1 := by
  rcases hostRead_cases ix s with ⟨_, h⟩ | ⟨r, _, _, h⟩ | ⟨r, _, _, _, h⟩ <;> rw [h] <;> exact ⟨rfl, rfl, rfl⟩

/-- Success or error, a command sets `DONE`, ends `BUSY` and leaves the host side alone (R206, R207). -/
theorem exec_done {i : Instr} {s t : State} (h : exec i s = .next t) :
    t.status.busy = false ∧ t.status.done = true ∧ t.env = s.env := by
  rcases exec_cases h with ⟨_, _, henv, hst⟩ | ⟨c, rfl⟩
  · rw [hst]; exact ⟨rfl, rfl, henv⟩
  · exact ⟨rfl, rfl, rfl⟩

/-- So does the engine's step, whatever word `CMD` holds (R208). -/
theorem completionStep_done (s : State) :
    ∃ t, completionStep s = .next t ∧ t.status.busy = false ∧ t.status.done = true ∧ t.env = s.env := by
  unfold completionStep
  cases decode s.cmd with
  | ok i =>
    obtain ⟨t, ht⟩ := exec_next i s
    exact ⟨t, ht, exec_done ht⟩
  | error e => exact ⟨illegalCommand s, rfl, rfl, rfl, rfl⟩

/-! ## `WAIT` (R101) -/

/-- A poll while busy: one more word read, and `WAIT` still next. -/
theorem step_wait_busy {s : State} {rest : List HostOp} (h : HostTurn s .wait rest) (hbusy : s.status.busy = true) :
    ∃ t, step s = .next t ∧ t.status = s.status ∧ t.env.program = s.env.program ∧ t.env.turns = s.env.turns.tail
      ∧ t.env.reads.length = s.env.reads.length + 1 := by
  refine ⟨_, (hostTurnPerformsTheTransaction s rest).2.2.2 h hbusy, ?_⟩
  obtain ⟨_, _, hst, _, _⟩ := hostRead_frame 0x002#12 { s with env := { s.env with turns := s.env.turns.tail } }
  exact ⟨hst, hostRead_env _ _⟩

/-- A poll while idle: one more word read, and the host goes past `WAIT`. -/
theorem step_wait_idle {s : State} {rest : List HostOp} (h : HostTurn s .wait rest) (hidle : s.status.busy = false) :
    ∃ t, step s = .next t ∧ t.status = s.status ∧ t.env.program = rest
      ∧ t.env.reads.length = s.env.reads.length + 1 := by
  refine ⟨_, (hostTurnPerformsTheTransaction s rest).2.2.1 h hidle, ?_⟩
  obtain ⟨_, _, hst, _, _⟩ := hostRead_frame 0x002#12 { s with env := afterHost s.env rest }
  obtain ⟨hprog, _, hreads⟩ := hostRead_env 0x002#12 { s with env := afterHost s.env rest }
  exact ⟨hst, hprog, hreads⟩

/-- Settles O13, by induction on the number of host turns: each is a poll while busy, and after the last come the completion and the
poll that ends `WAIT`. -/
theorem waitEndsAfterCompletion : Obligations.WaitEndsAfterCompletion := by
  intro k
  induction k with
  | zero =>
    intro s rest hbusy hturns hprog
    obtain ⟨u, hu, hidle, hdone, henv⟩ := completionStep_done (popTurn s)
    have hstep : step s = .next u := (step_of_engineTurn ⟨hbusy, .inl hturns⟩).trans hu
    have hturn : HostTurn u .wait rest := by simp [HostTurn, hidle, henv, hprog, hturns]
    obtain ⟨t, ht, hst, hrest, hreads⟩ := step_wait_idle hturn hidle
    refine ⟨t, by rw [run_succ 1 hstep, run_succ 0 ht, run_zero], hrest, hst ▸ hidle, hst ▸ hdone, ?_⟩
    rw [hreads, henv]; rfl
  | succ k ih =>
    intro s rest hbusy hturns hprog
    have hturn : HostTurn s .wait rest := ⟨hprog, .inr ⟨List.replicate k .host, hturns⟩⟩
    obtain ⟨u, hu, hst, hprog', hturns', hreads⟩ := step_wait_busy hturn hbusy
    obtain ⟨t, ht, hrest, hidle, hdone, hcount⟩ :=
      ih u rest (hst ▸ hbusy) (by rw [hturns', hturns]; rfl) (hprog'.trans hprog)
    exact ⟨t, by rw [run_succ (k + 2) hu, ht], hrest, hidle, hdone, by omega⟩

end Sys2Proof.Machine
end

section
/-! PROOFS. O14 and O15: the result writes each command makes, and the registers they and its error code depend on. -/

namespace Sys2Proof.Machine

open Sys2Proof.Config

/-! ## What a command can write (R94) -/

/-- The states that the result writes of command `i` can leave from `s`: those of `EXTGCD`, `MATINV` and `MATKEY`, and for every other
command a write of `RES_V`. -/
inductive Written (s : State) : Instr → State → Prop
  | euclid (e : EuclidResult) : Written s .extgcd (putEuclid e s)
  | inverse (n : Nat) (d : Int) (entry : Nat → Nat → Int) : Written s .matinv (putInverse n d entry s)
  | key (n : Nat) (entry : Nat → Nat → Int) : Written s .matkey (putKey n entry s)
  | value {i : Instr} (v : Int) (hi : i ∉ [Instr.extgcd, .matinv, .matkey]) : Written s i (putV v s)

/-- Every command ends by `conclude`, with its own writes where it succeeds. -/
theorem exec_conclude_written (i : Instr) (s : State) : ∃ r, exec i s = conclude s r ∧ ∀ u, r = .ok u → Written s i u := by
  cases i with
  | extgcd =>
    refine ⟨.ok _, rfl, fun u h => ?_⟩
    cases h; exact .euclid _
  | modinv =>
    refine ⟨_, rfl, fun u h => ?_⟩
    split at h <;> try contradiction
    split at h <;> try contradiction
    cases h; exact .value _ (by decide)
  | gfadd | gfsub | gfmul | detmod =>
    refine ⟨_, rfl, fun u h => ?_⟩
    split at h <;> try contradiction
    cases h; exact .value _ (by decide)
  | gfinv | gfdiv =>
    refine ⟨_, rfl, fun u h => ?_⟩
    split at h <;> try contradiction
    split at h <;> try contradiction
    cases h; exact .value _ (by decide)
  | matinv =>
    refine ⟨_, rfl, fun u h => ?_⟩
    split at h <;> try contradiction
    dsimp only at h
    split at h <;> try contradiction
    cases h; exact .inverse _ _ _
  | matkey =>
    refine ⟨_, rfl, fun u h => ?_⟩
    split at h <;> try contradiction
    cases h; exact .key _ _

/-- All that a command can leave: its writes, completed, or an error completion. -/
theorem exec_written {i : Instr} {s t : State} (h : exec i s = .next t) :
    (∃ u, Written s i u ∧ t = complete u) ∨ ∃ c, t = raiseErr c s := by
  obtain ⟨r, hr, hwritten⟩ := exec_conclude_written i s
  rw [hr] at h
  rcases conclude_cases h with ⟨u, hu, rfl⟩ | ⟨c, _, rfl⟩
  · exact .inl ⟨u, hwritten u hu, rfl⟩
  · exact .inr ⟨c, rfl⟩

/-- Settles O15, by cases of the result writes a command can make (`exec_written`). -/
theorem commandsWriteOnlyTheirRegisters : Obligations.CommandsWriteOnlyTheirRegisters := by
  intro i s t h
  rcases exec_written h with ⟨u, hu, rfl⟩ | ⟨c, rfl⟩
  · cases hu with
    | euclid e => simp
    | inverse n d entry => simp
    | key n entry => simp
    | value v hi =>
      simp only [List.mem_cons, List.not_mem_nil, or_false, not_or] at hi
      simp [hi]
  · simp

/-! ## Completions that agree (R94, R205) -/

/-- The two states hold the same values in the registers that R94 lists as written by command `i`. -/
structure SameWrites (i : Instr) (t t' : State) : Prop where
  key : i = .matkey → t.ops.n = t'.ops.n ∧ t.ops.matIn = t'.ops.matIn
  euclid : i = .extgcd →
    t.res.g = t'.res.g ∧ t.res.x = t'.res.x ∧ t.res.y = t'.res.y ∧ t.res.traceLen = t'.res.traceLen ∧ t.res.trace = t'.res.trace
  value : i ≠ .extgcd → i ≠ .matkey → t.res.v = t'.res.v
  inverse : i = .matinv → t.res.matOut = t'.res.matOut

/-- The two outcomes of command `i` are the same error, or write the same values. -/
def SameOutcome (i : Instr) : Except ErrCode State → Except ErrCode State → Prop
  | .ok u, .ok u' => SameWrites i u u'
  | .error c, .error c' => c = c'
  | .ok _, .error _ => False
  | .error _, .ok _ => False

/-- `exec` on `s` and on `s'` concludes with the same outcome. -/
def ExecAgrees (i : Instr) (s s' : State) : Prop :=
  ∃ r r', exec i s = conclude s r ∧ exec i s' = conclude s' r' ∧ SameOutcome i r r'

theorem ExecAgrees.completion {i : Instr} {s s' t t' : State} (h : ExecAgrees i s s') (ht : exec i s = .next t)
    (ht' : exec i s' = .next t') :
    t.status.err = t'.status.err ∧ t.status.errcode = t'.status.errcode ∧ (t.status.err = false → SameWrites i t t') := by
  obtain ⟨r, r', hr, hr', hsame⟩ := h
  rw [hr] at ht
  rw [hr'] at ht'
  rcases conclude_cases ht with ⟨u, rfl, rfl⟩ | ⟨c, rfl, rfl⟩ <;> rcases conclude_cases ht' with ⟨u', rfl, rfl⟩ | ⟨c', rfl, rfl⟩
  · exact ⟨rfl, rfl, fun _ => ⟨hsame.key, hsame.euclid, hsame.value, hsame.inverse⟩⟩
  · exact hsame.elim
  · exact hsame.elim
  · exact ⟨rfl, hsame, nofun⟩

/-! Each of the result writes, made with the same values on both states. -/

theorem sameWrites_putV {i : Instr} {v v' : Int} {s s' : State} (hi : i ∉ [Instr.extgcd, .matinv, .matkey]) (hv : v = v') :
    SameWrites i (putV v s) (putV v' s') := by
  simp only [List.mem_cons, List.not_mem_nil, or_false, not_or] at hi
  constructor <;> simp [hi, hv]

theorem sameWrites_putEuclid {e e' : EuclidResult} {s s' : State} (hcfg : s.cfg = s'.cfg) (he : e = e') :
    SameWrites .extgcd (putEuclid e s) (putEuclid e' s') := by
  constructor <;> simp [hcfg, he]

theorem sameWrites_putInverse {n : Nat} {d d' : Int} {f f' : Nat → Nat → Int} {s s' : State} (hcfg : s.cfg = s'.cfg) (hd : d = d')
    (hf : gridOf s.cfg.nmax n f = gridOf s.cfg.nmax n f') : SameWrites .matinv (putInverse n d f s) (putInverse n d' f' s') := by
  constructor <;> simp [hd, hf, ← hcfg]

theorem sameWrites_putKey {n : Nat} {f f' : Nat → Nat → Int} {s s' : State} (hcfg : s.cfg = s'.cfg)
    (hf : gridOf s.cfg.nmax n f = gridOf s.cfg.nmax n f') : SameWrites .matkey (putKey n f s) (putKey n f' s') := by
  constructor <;> simp [hf, ← hcfg]

/-! ## Operands that agree -/

theorem fieldOperands_congr {s s' : State} (ha : s.ops.a = s'.ops.a) (hb : s.ops.b = s'.ops.b) :
    fieldOperands s = fieldOperands s' := by
  rw [fieldOperands, fieldOperands, ha, hb]

theorem fieldResult_congr {s s' : State} {i : Instr} {b b' : Int} {r : Byte} (hcfg : s.cfg = s'.cfg) (ha : s.ops.a = s'.ops.a)
    (hb : b = b') : fieldResult s i b r = fieldResult s' i b' r := by
  rw [fieldResult, fieldResult, hcfg, ha, hb]

/-- A whole array depends on its leading square alone. -/
theorem gridOf_congr {nmax n : Nat} {f f' : Nat → Nat → Int} (h : ∀ i < n, ∀ j < n, f i j = f' i j) :
    gridOf nmax n f = gridOf nmax n f' := by
  unfold gridOf
  refine List.map_congr_left fun i _ => List.map_congr_left fun j _ => ?_
  split
  · next hij => exact h i hij.1 j hij.2
  · rfl

section Square

variable {n : Nat} {S S' : Nat → Nat → Int} (h : ∀ i < n, ∀ j < n, S i j = S' i j)

include h

theorem squareOf_congr : squareOf n S = squareOf n S' := by
  ext i j
  exact h i i.isLt j j.isLt

theorem detMod_congr (m : Int) : detMod n m S = detMod n m S' := by
  rw [detMod, detMod, det_eq, det_eq, squareOf_congr h]

theorem adj_congr {i j : Nat} (hi : i < n) (hj : j < n) : adj n S i j = adj n S' i j := by
  rw [adj_eq n S ⟨i, hi⟩ ⟨j, hj⟩, adj_eq n S' ⟨i, hi⟩ ⟨j, hj⟩, squareOf_congr h]

theorem entriesInRange_congr (m : Int) : entriesInRange n m S = entriesInRange n m S' := by
  rw [Bool.eq_iff_iff, entriesInRange_iff, entriesInRange_iff]
  constructor <;> intro hrange i hi j hj
  · exact h i hi j hj ▸ hrange i hi j hj
  · exact (h i hi j hj).symm ▸ hrange i hi j hj

end Square

theorem matrixDimension_congr {s s' : State} (hcfg : s.cfg = s'.cfg) (hn : s.ops.n = s'.ops.n) (hm : s.ops.m = s'.ops.m)
    (hS : ∀ p < s.ops.n.toNat, ∀ q < s.ops.n.toNat, matrixOperand s p q = matrixOperand s' p q) :
    matrixDimension s = matrixDimension s' := by
  rw [matrixDimension, matrixDimension, entriesInRange_congr hS, hcfg, hn, hm]

theorem keyDimension_congr {s s' : State} (hcfg : s.cfg = s'.cfg) (hlen : s.ops.keyLen = s'.ops.keyLen)
    (hchar : ∀ k < s.ops.keyLen.toNat, keyCharacter s k = keyCharacter s' k) : keyDimension s = keyDimension s' := by
  have hletters : keyIsLetters s s.ops.keyLen.toNat = keyIsLetters s' s.ops.keyLen.toNat := by
    rw [Bool.eq_iff_iff, keyIsLetters_iff, keyIsLetters_iff]
    exact forall₂_congr fun k hk => by rw [hchar k hk]
  rw [keyDimension, keyDimension, hletters, hcfg, hlen]

/-- Row-major, the entries of an n x n key matrix are the first n * n characters (R180). -/
theorem keyEntry_congr {s s' : State} {n i j : Nat} (hchar : ∀ k < n * n, keyCharacter s k = keyCharacter s' k) (hi : i < n)
    (hj : j < n) : keyEntry s n i j = keyEntry s' n i j := by
  have hk : i * n + j < n * n := by nlinarith
  rw [keyEntry, keyEntry, hchar _ hk]

/-! ## Commands -/

/-- The dimension, the determinant and the cofactors of `MATINV` depend on `N`, `M` and the leading square alone. -/
theorem execAgrees_matinv {s s' : State} (hcfg : s.cfg = s'.cfg) (h : SameReads .matinv s s') : ExecAgrees .matinv s s' := by
  obtain ⟨hn, hm, hentry⟩ := h
  have hS : ∀ p < s.ops.n.toNat, ∀ q < s.ops.n.toNat, matrixOperand s p q = matrixOperand s' p q := hentry
  refine ⟨_, _, rfl, rfl, ?_⟩
  rw [← matrixDimension_congr hcfg hn hm hS]
  cases hdim : matrixDimension s with
  | ok n =>
    obtain ⟨rfl, _⟩ := matrixDimension_ok hdim
    dsimp only
    rw [← hm, ← detMod_congr hS]
    cases inverseMod .notInvertibleModM (detMod s.ops.n.toNat s.ops.m (matrixOperand s)) s.ops.m with
    | ok dinv => exact sameWrites_putInverse hcfg rfl (gridOf_congr fun i hi j hj => by rw [adj_congr hS hi hj])
    | error c => rfl
  | error c => rfl

/-- A command agrees on two states that agree on the registers it reads. -/
theorem execAgrees_of_sameReads {i : Instr} {s s' : State} (hcfg : s.cfg = s'.cfg) (h : SameReads i s s') : ExecAgrees i s s' := by
  cases i with
  | extgcd =>
    obtain ⟨ha, hb⟩ := h
    exact ⟨.ok _, .ok _, rfl, rfl, sameWrites_putEuclid hcfg (by rw [ha, hb])⟩
  | modinv =>
    obtain ⟨ha, hm⟩ := h
    refine ⟨_, _, rfl, rfl, ?_⟩
    rw [← ha, ← hm]
    split
    · rfl
    · cases inverseMod .notInvertible s.ops.a s.ops.m with
      | ok v => exact sameWrites_putV (by decide) rfl
      | error c => rfl
  | gfadd | gfsub | gfmul =>
    obtain ⟨ha, hb⟩ := h
    refine ⟨_, _, rfl, rfl, ?_⟩
    rw [← fieldOperands_congr ha hb]
    cases fieldOperands s with
    | ok ab => exact sameWrites_putV (by decide) (fieldResult_congr hcfg ha hb)
    | error c => rfl
  | gfinv =>
    refine ⟨_, _, rfl, rfl, ?_⟩
    have ha : s.ops.a = s'.ops.a := h
    rw [← ha]
    cases fieldElement s.ops.a with
    | ok a =>
      dsimp only
      split
      · rfl
      · exact sameWrites_putV (by decide) (fieldResult_congr hcfg ha rfl)
    | error c => rfl
  | gfdiv =>
    obtain ⟨ha, hb⟩ := h
    refine ⟨_, _, rfl, rfl, ?_⟩
    rw [← fieldOperands_congr ha hb]
    cases fieldOperands s with
    | ok ab =>
      dsimp only
      split
      · rfl
      · exact sameWrites_putV (by decide) (fieldResult_congr hcfg ha hb)
    | error c => rfl
  | detmod =>
    obtain ⟨hn, hm, hS⟩ := h
    refine ⟨_, _, rfl, rfl, ?_⟩
    rw [← matrixDimension_congr hcfg hn hm hS]
    cases hdim : matrixDimension s with
    | ok n =>
      obtain ⟨rfl, _⟩ := matrixDimension_ok hdim
      exact sameWrites_putV (by decide) (hm ▸ detMod_congr hS _)
    | error c => rfl
  | matinv => exact execAgrees_matinv hcfg h
  | matkey =>
    obtain ⟨hlen, hchar⟩ := h
    refine ⟨_, _, rfl, rfl, ?_⟩
    rw [← keyDimension_congr hcfg hlen hchar]
    cases hdim : keyDimension s with
    | ok n =>
      obtain ⟨hsq, _⟩ := keyDimension_ok hdim
      exact sameWrites_putKey hcfg (gridOf_congr fun i hi j hj => keyEntry_congr (hsq ▸ hchar) hi hj)
    | error c => rfl

/-- Settles O14: the outcome of a command is the same on both states (`execAgrees_of_sameReads`), so the completion is. -/
theorem completionDependsOnItsReadsAlone : Obligations.CompletionDependsOnItsReadsAlone := by
  intro i s s' t t' hcfg hreads ht ht'
  obtain ⟨herr, hcode, hwrites⟩ := (execAgrees_of_sameReads hcfg hreads).completion ht ht'
  exact ⟨herr, hcode, fun h => (hwrites h).key, fun h => (hwrites h).euclid, fun h => (hwrites h).value, fun h => (hwrites h).inverse⟩

end Sys2Proof.Machine
end

section
/-! PROOFS. O31 and O32: `LDKEY` and `LDMAT` as stores to a list of operand registers, each written with one value. -/

namespace Sys2Proof.Machine

open Sys2Proof.Config

/-! ## Narrowing a written number (R72, R96) -/

theorem setWidth_ofInt_of_le {w : Nat} (hw : w ≤ 64) (v : Int) : (BitVec.ofInt 64 v).setWidth w = BitVec.ofInt w v := by
  have hdvd : 2 ^ w ∣ 2 ^ 64 := Nat.pow_dvd_pow 2 hw
  apply BitVec.eq_of_toInt_eq
  rw [BitVec.toInt_setWidth, ← Int.bmod_bmod_of_dvd hdvd, ← BitVec.toInt_eq_toNat_bmod, BitVec.toInt_ofInt,
    Int.bmod_bmod_of_dvd hdvd, BitVec.toInt_ofInt]

/-- A number of 8 bits is itself in an 8-bit register. -/
theorem toNat_setWidth_ofInt_natCast {n : Nat} (hn : n < 256) : ((BitVec.ofInt 64 n).setWidth 8).toNat = n := by
  rw [setWidth_ofInt_of_le (by decide), BitVec.ofInt_natCast, BitVec.toNat_ofNat, Nat.mod_eq_of_lt hn]

theorem narrowSigned_ofInt {w : Nat} (hw : w ≤ 64) (v : Int) : narrowSigned w (BitVec.ofInt 64 v) = (BitVec.ofInt w v).toInt := by
  rw [narrowSigned, setWidth_ofInt_of_le hw]

/-! ## Writing a list of registers -/

/-- The operand registers after a write of `val r` to each register `r` of a list, in order. -/
def writeAll (w : Nat) (val : Reg → Int) (o : Operands) (regs : List Reg) : Operands :=
  regs.foldl (fun o r => writeOperand w o r (BitVec.ofInt 64 (val r))) o

@[simp] theorem writeAll_nil (w : Nat) (val : Reg → Int) (o : Operands) : writeAll w val o [] = o := rfl

@[simp] theorem writeAll_cons (w : Nat) (val : Reg → Int) (o : Operands) (r : Reg) (rs : List Reg) :
    writeAll w val o (r :: rs) = writeAll w val (writeOperand w o r (BitVec.ofInt 64 (val r))) rs := rfl

/-- What no write of a listed register changes, the whole list does not change. -/
theorem writeAll_keeps {α : Type} {f : Operands → α} {w : Nat} {regs : List Reg} (val : Reg → Int) (o : Operands)
    (h : ∀ r ∈ regs, ∀ o d, f (writeOperand w o r d) = f o) : f (writeAll w val o regs) = f o := by
  induction regs generalizing o with
  | nil => rfl
  | cons r rs ih =>
    rw [writeAll_cons, ih _ fun r' hr' => h r' (List.mem_cons_of_mem r hr'), h r List.mem_cons_self]

/-- `f` is what register `R` holds: a write of `R` stores the data word, narrowed by `g`, and a write of another register of the
implementation changes nothing. -/
def Holds {α : Type} (p : Params) (R : Reg) (f : Operands → α) (g : PortWord → α) : Prop :=
  ∀ (o : Operands) (r : Reg) (d : PortWord), o.wf p → r.wellFormed p = true → f (writeOperand p.w o r d) = if r = R then g d else f o

/-- A register holds the value the list writes to it, or what it held where the list leaves it out. -/
theorem writeAll_holds {α : Type} {p : Params} {R : Reg} {f : Operands → α} {g : PortWord → α} {o : Operands} {regs : List Reg}
    (val : Reg → Int) (hw : 1 ≤ p.w) (hf : Holds p R f g) (ho : o.wf p) (hregs : ∀ r ∈ regs, r.wellFormed p = true) :
    f (writeAll p.w val o regs) = if R ∈ regs then g (BitVec.ofInt 64 (val R)) else f o := by
  induction regs generalizing o with
  | nil => rfl
  | cons r rs ih =>
    obtain ⟨hr, hrs⟩ := List.forall_mem_cons.mp hregs
    rw [writeAll_cons, ih (writeOperand_wf _ hw hr ho) hrs, hf o r _ ho hr]
    by_cases hR : R ∈ rs
    · simp [hR]
    · by_cases heq : r = R
      · simp [heq]
      · simp [hR, heq, Ne.symm heq]

theorem holds_n (p : Params) : Holds p .n (·.n) (·.setWidth 8) := fun o r d _ _ => writeOperand_n p.w o r d

theorem holds_keyLen (p : Params) : Holds p .keyLen (·.keyLen) (·.setWidth 8) := fun o r d _ _ => writeOperand_keyLen p.w o r d

theorem holds_keyChar (p : Params) (k : Nat) : Holds p (.keyChar k) (·.keyChar.getD k 0#8) (·.setWidth 8) :=
  fun _ _ d ho hr => writeOperand_keyChar d ho hr k

theorem holds_matIn (p : Params) (i j : Nat) : Holds p (.matIn i j) (fun o => gridEntry o.matIn i j) (narrowSigned p.w) :=
  fun _ _ d ho hr => writeOperand_matIn d ho hr i j

/-! ## The host's writes -/

/-- The host's write of an operand register while idle is a store past the operation (R46, R71). -/
theorem hostStep_wrReg {s : State} {r : Reg} (v : Int) (hp : s.cfg.legal) (hidle : s.status.busy = false)
    (hr : r.wellFormed s.cfg = true) (ha : regAccess r = .rw) :
    hostStep (wrReg r v) s = storeOperand r (BitVec.ofInt 64 v) (popOp s) :=
  hostWrite_of_idle (s := popOp s) _ (regAt_regIndex hp hr) ha hidle

/-- On an idle machine the writes of a list of operand registers change these registers and the host side, and nothing else. -/
theorem foldl_wrReg {s : State} {val : Reg → Int} {regs : List Reg} (hp : s.cfg.legal) (hidle : s.status.busy = false)
    (hregs : ∀ r ∈ regs, r.wellFormed s.cfg = true ∧ regAccess r = .rw) :
    ∃ e, (regs.map fun r => wrReg r (val r)).foldl (fun u op => hostStep op u) s
      = { s with ops := writeAll s.cfg.w val s.ops regs, env := e } := by
  induction regs generalizing s with
  | nil => exact ⟨s.env, rfl⟩
  | cons r rs ih =>
    obtain ⟨⟨hr, ha⟩, hrs⟩ := List.forall_mem_cons.mp hregs
    rw [List.map_cons, List.foldl_cons, hostStep_wrReg (val r) hp hidle hr ha]
    exact ih (s := storeOperand r (BitVec.ofInt 64 (val r)) (popOp s)) hp hidle hrs

/-! ## `LDKEY` (R99) -/

/-- The registers `LDKEY` writes, for a string of `len` characters. -/
def keyRegs (len : Nat) : List Reg := .keyLen :: (List.range len).map .keyChar

/-- The number `LDKEY` writes to each of its registers. -/
def keyValue (str : List Byte) : Reg → Int
  | .keyLen => str.length
  | .keyChar k => (str.getD k 0#8).toNat
  | _ => 0

theorem expand_ldkey (str : List Byte) : expand (.ldkey str) = (keyRegs str.length).map fun r => wrReg r (keyValue str r) := by
  simp [expand, keyRegs, keyValue]

theorem keyRegs_writable {p : Params} {len : Nat} (h : len ≤ p.nmax * p.nmax) :
    ∀ r ∈ keyRegs len, r.wellFormed p = true ∧ regAccess r = .rw := by
  simp only [keyRegs, List.forall_mem_cons, List.forall_mem_map, List.mem_range]
  exact ⟨⟨rfl, rfl⟩, fun k hk => ⟨decide_eq_true (by omega), rfl⟩⟩

theorem keyChar_mem_keyRegs {k len : Nat} : Reg.keyChar k ∈ keyRegs len ↔ k < len := by simp [keyRegs]

/-- The writes of `LDKEY` change `KEY_LEN` and `KEY_CHAR` alone. -/
theorem writeAll_keyRegs_frame (w : Nat) (val : Reg → Int) (o : Operands) (len : Nat) :
    { writeAll w val o (keyRegs len) with keyLen := o.keyLen, keyChar := o.keyChar } = o := by
  refine writeAll_keeps (f := fun o' => { o' with keyLen := o.keyLen, keyChar := o.keyChar }) val o ?_
  simp only [keyRegs, List.forall_mem_cons, List.forall_mem_map]
  exact ⟨fun _ _ => rfl, fun _ _ _ _ => rfl⟩

/-- Settles O31: the string's registers hold what was written to them (`writeAll_holds`), and nothing else changed
(`writeAll_keyRegs_frame`). -/
theorem ldkeyLoadsTheKeyString : Obligations.LdkeyLoadsTheKeyString := by
  intro s str hs hidle hwf
  obtain ⟨hw, _, _, hnmax, _, _⟩ := hs.cfg
  have hlen : str.length ≤ s.cfg.nmax * s.cfg.nmax := of_decide_eq_true hwf
  have hsq : s.cfg.nmax * s.cfg.nmax ≤ 15 * 15 := Nat.mul_le_mul hnmax hnmax
  have hregs := keyRegs_writable hlen
  obtain ⟨e, he⟩ := foldl_wrReg (val := keyValue str) hs.cfg hidle hregs
  rw [expand_ldkey, he]
  have holds {α : Type} {R : Reg} {f : Operands → α} {g : PortWord → α} (hf : Holds s.cfg R f g) :=
    writeAll_holds (keyValue str) (Nat.le_of_succ_le hw) hf hs.ops fun r hr => (hregs r hr).1
  have frame := writeAll_keyRegs_frame s.cfg.w (keyValue str) s.ops str.length
  refine ⟨?_, fun k hk => ?_, fun k hk => ?_, congrArg (·.a) frame, congrArg (·.b) frame, congrArg (·.m) frame,
    congrArg (·.n) frame, congrArg (·.matIn) frame, rfl, rfl, rfl, rfl⟩
  · rw [(holds (holds_keyLen s.cfg)).trans (if_pos List.mem_cons_self)]
    exact toNat_setWidth_ofInt_natCast (by omega)
  · refine ((holds (holds_keyChar s.cfg k)).trans (if_pos (keyChar_mem_keyRegs.mpr hk))).trans (BitVec.eq_of_toNat_eq ?_)
    have hget : str.getD k 0#8 = str[k] := by simp [hk]
    simp only [keyValue, hget]
    exact toNat_setWidth_ofInt_natCast str[k].isLt
  · exact (holds (holds_keyChar s.cfg k)).trans (if_neg (by rw [keyChar_mem_keyRegs]; omega))

/-! ## `LDMAT` (R99) -/

/-- The registers `LDMAT` writes, for an n x n matrix. -/
def matrixRegs (n : Nat) : List Reg := .n :: (rowMajor n).map fun ij => .matIn ij.1 ij.2

/-- The number `LDMAT` writes to each of its registers. -/
def matrixValue (n : Nat) (rows : Grid) : Reg → Int
  | .n => n
  | .matIn i j => gridEntry rows i j
  | _ => 0

theorem expand_ldmat (n : Nat) (rows : Grid) :
    expand (.ldmat n rows) = (matrixRegs n).map fun r => wrReg r (matrixValue n rows r) := by
  simp [expand, matrixRegs, matrixValue]

theorem mem_rowMajor {n : Nat} {ij : Nat × Nat} : ij ∈ rowMajor n ↔ ij.1 < n ∧ ij.2 < n := by
  obtain ⟨i, j⟩ := ij
  simp [rowMajor]

theorem matrixRegs_writable {p : Params} {n : Nat} (h : n ≤ p.nmax) :
    ∀ r ∈ matrixRegs n, r.wellFormed p = true ∧ regAccess r = .rw := by
  simp only [matrixRegs, List.forall_mem_cons, List.forall_mem_map, mem_rowMajor]
  refine ⟨⟨rfl, rfl⟩, fun ij hij => ⟨?_, rfl⟩⟩
  simp only [Reg.wellFormed, Bool.and_eq_true, decide_eq_true_eq]
  omega

theorem matIn_mem_matrixRegs {i j n : Nat} : Reg.matIn i j ∈ matrixRegs n ↔ i < n ∧ j < n := by
  simp [matrixRegs, mem_rowMajor]

/-- The writes of `LDMAT` change `N` and `MAT_IN` alone. -/
theorem writeAll_matrixRegs_frame (w : Nat) (val : Reg → Int) (o : Operands) (n : Nat) :
    { writeAll w val o (matrixRegs n) with n := o.n, matIn := o.matIn } = o := by
  refine writeAll_keeps (f := fun o' => { o' with n := o.n, matIn := o.matIn }) val o ?_
  simp only [matrixRegs, List.forall_mem_cons, List.forall_mem_map]
  exact ⟨fun _ _ => rfl, fun _ _ _ _ => rfl⟩

/-- Settles O32: the matrix's registers hold what was written to them (`writeAll_holds`), narrowed to W bits, and nothing else changed
(`writeAll_matrixRegs_frame`). -/
theorem ldmatLoadsTheMatrix : Obligations.LdmatLoadsTheMatrix := by
  intro s n rows hs hidle hwf
  obtain ⟨hw, hw63, _, hnmax, _, _⟩ := hs.cfg
  simp only [Pseudo.wellFormed, Bool.and_eq_true, decide_eq_true_eq] at hwf
  obtain ⟨⟨hn, _⟩, _⟩ := hwf
  have hregs := matrixRegs_writable hn
  obtain ⟨e, he⟩ := foldl_wrReg (val := matrixValue n rows) hs.cfg hidle hregs
  rw [expand_ldmat, he]
  have holds {α : Type} {R : Reg} {f : Operands → α} {g : PortWord → α} (hf : Holds s.cfg R f g) :=
    writeAll_holds (matrixValue n rows) (Nat.le_of_succ_le hw) hf hs.ops fun r hr => (hregs r hr).1
  have frame := writeAll_matrixRegs_frame s.cfg.w (matrixValue n rows) s.ops n
  have entry {i j : Nat} (hi : i < n) (hj : j < n) :
      gridEntry (writeAll s.cfg.w (matrixValue n rows) s.ops (matrixRegs n)).matIn i j
        = (BitVec.ofInt s.cfg.w (gridEntry rows i j)).toInt :=
    ((holds (holds_matIn s.cfg i j)).trans (if_pos (matIn_mem_matrixRegs.mpr ⟨hi, hj⟩))).trans (narrowSigned_ofInt (by omega) _)
  refine ⟨?_, fun i hi j hj => ⟨entry hi hj, fun hfits => ?_⟩, fun i j hij => ?_, congrArg (·.a) frame, congrArg (·.b) frame,
    congrArg (·.m) frame, congrArg (·.keyLen) frame, congrArg (·.keyChar) frame, rfl, rfl, rfl, rfl⟩
  · rw [(holds (holds_n s.cfg)).trans (if_pos List.mem_cons_self)]
    exact toNat_setWidth_ofInt_natCast (by omega)
  · exact (entry hi hj).trans (BitVec.toInt_ofInt_eq_self (by omega) hfits.1 hfits.2)
  · exact (holds (holds_matIn s.cfg i j)).trans (if_neg (mt matIn_mem_matrixRegs.mp hij))

end Sys2Proof.Machine
end

section
/-! PROOFS. O33 and O34: the order of the reads of `RDMAT` and `RDTRACE`, the transactions of `CMD` and `RUN`, and the listing of
transactions. -/

namespace Sys2Proof.Machine

/-! ## Expansions (R98, R99, R101) -/

/-- In blocks of one length, place i * m + j is place j of block i. -/
theorem getElem?_flatMap_of_length {α β : Type} {f : α → List β} {m : Nat} (hf : ∀ a, (f a).length = m) (l : List α) (i : Nat) {j : Nat}
    (hj : j < m) :
    (l.flatMap f)[i * m + j]? = l[i]?.bind fun a => (f a)[j]? := by
  induction l generalizing i with
  | nil => rfl
  | cons a l ih =>
    cases i with
    | zero => simp [List.getElem?_append_left, hf, hj]
    | succ i =>
      have hplace : (i + 1) * m + j - (f a).length = i * m + j := by rw [hf, Nat.succ_mul]; omega
      rw [List.flatMap_cons, List.getElem?_append_right (by rw [hf]; nlinarith), hplace, ih]
      rfl

theorem rowMajor_length (n : Nat) : (rowMajor n).length = n * n := by simp [rowMajor]

theorem rowMajor_getElem? {n i j : Nat} (hi : i < n) (hj : j < n) : (rowMajor n)[i * n + j]? = some (i, j) := by
  rw [rowMajor, getElem?_flatMap_of_length (by simp) _ _ hj]
  simp [hi, hj]

theorem expand_rdtrace_length (t : Nat) : (expand (.rdtrace t)).length = 6 * t := by
  simp [expand, traceFields, Nat.mul_comm]

/-- Field j of trace row k is read j places after 6k. -/
theorem expand_rdtrace_getElem? {t k j : Nat} (hk : k < t) (hj : j < 6) :
    (expand (.rdtrace t))[6 * k + j]? = traceFields[j]?.map fun f => rdReg (.trace k f) := by
  rw [expand, Nat.mul_comm, getElem?_flatMap_of_length (m := 6) (fun _ => rfl) _ _ hj]
  simp [hk]

theorem setWidth_encode (i : Instr) : (encode i).setWidth 64 = BitVec.ofNat 64 (opcode i).toNat := by
  cases i <;> rfl

/-- Settles O33: `rowMajor` lists row after row, and each row of `RDTRACE` is a block of six reads. -/
theorem readPseudosReadInOrder : Obligations.ReadPseudosReadInOrder := by
  refine ⟨fun n i j hi hj => ⟨?_, ?_⟩, fun t k hk => ⟨expand_rdtrace_length t, ?_⟩, fun i => ⟨?_, rfl⟩⟩
  · rw [expand, List.length_map, rowMajor_length]
  · rw [expand, List.getElem?_map, rowMajor_getElem? hi hj]; rfl
  · have hread {j : Nat} (hj : j < 6) := expand_rdtrace_getElem? hk hj
    exact ⟨hread (j := 0) (by decide), hread (j := 1) (by decide), hread (j := 2) (by decide), hread (j := 3) (by decide),
      hread (j := 4) (by decide), hread (j := 5) (by decide)⟩
  · rw [expand, setWidth_encode]; rfl

/-! ## The listing (R97) -/

theorem hexDigits_length (n v : Nat) : (hexDigits n v).length = n := by
  induction n generalizing v with
  | zero => rfl
  | succ n ih => rw [hexDigits, List.length_append, ih, List.length_singleton]

/-- The sixteen digits are distinct. -/
theorem hexDigit_inj {v v' : Nat} (h : hexDigit v = hexDigit v') : v % 16 = v' % 16 := by
  have distinct : ∀ d < 16, ∀ d' < 16, hexAlphabet.getD d (Char.ofNat 0x30) = hexAlphabet.getD d' (Char.ofNat 0x30) → d = d' := by
    decide
  exact distinct _ (Nat.mod_lt v (by decide)) _ (Nat.mod_lt v' (by decide)) h

/-- A number below 16^n is determined by its n digits. -/
theorem hexDigits_inj {n v v' : Nat} (hv : v < 16 ^ n) (hv' : v' < 16 ^ n) (h : hexDigits n v = hexDigits n v') : v = v' := by
  induction n generalizing v v' with
  | zero => simp_all
  | succ n ih =>
    obtain ⟨hhigh, hlow⟩ := List.append_inj' h rfl
    have hmod := hexDigit_inj (List.singleton_injective hlow)
    have hdiv := ih (by rw [pow_succ] at hv; omega) (by rw [pow_succ] at hv'; omega) hhigh
    omega

theorem hexDigits_index_inj {ix ix' : Index} (h : hexDigits 3 ix.toNat = hexDigits 3 ix'.toNat) : ix = ix' :=
  BitVec.eq_of_toNat_eq (hexDigits_inj ix.isLt ix'.isLt h)

theorem hexDigits_data_inj {d d' : PortWord} (h : hexDigits 16 d.toNat = hexDigits 16 d'.toNat) : d = d' :=
  BitVec.eq_of_toNat_eq (hexDigits_inj d.isLt d'.isLt h)

/-- Settles O34: the first letter tells `WR` from `RD`, and the digits, in their fixed places, give the index and the data. -/
theorem listingTellsTransactionsApart : Obligations.ListingTellsTransactionsApart := by
  intro op op' hop hop' h
  cases op with
  | wait => contradiction
  | wr ix d =>
    cases op' with
    | wait => contradiction
    | rd ix' => simp [listing] at h
    | wr ix' d' =>
      obtain ⟨hhead, hdata⟩ := List.append_inj' h (by simp only [hexDigits_length])
      obtain ⟨hindex, _⟩ := List.append_inj' hhead rfl
      rw [hexDigits_index_inj (List.append_cancel_left hindex), hexDigits_data_inj hdata]
  | rd ix =>
    cases op' with
    | wait => contradiction
    | wr ix' d' => simp [listing] at h
    | rd ix' => rw [hexDigits_index_inj (List.append_cancel_left h)]

end Sys2Proof.Machine
end

section
/-! PROOFS. O35 to O39: what `EXTGCD` and `MODINV` leave, the run of Euclid as iterates of one iteration, which the trace shows, and the
bounds of its values. -/

namespace Sys2Proof.Machine

open Sys2Proof.Config

/-! ## What `EXTGCD` leaves (R118) -/

theorem exec_extgcd (s : State) : exec .extgcd s = .next (complete (putEuclid (euclid s.ops.a s.ops.b) s)) := rfl

theorem eq_of_exec_extgcd {s t : State} (h : exec .extgcd s = .next t) : t = complete (putEuclid (euclid s.ops.a s.ops.b) s) :=
  (Host.Outcome.next.inj h).symm

theorem extgcd_res_g {s t : State} (h : exec .extgcd s = .next t) : t.res.g = (euclid s.ops.a s.ops.b).gcd := by
  rw [eq_of_exec_extgcd h]; rfl

theorem extgcd_res_x {s t : State} (h : exec .extgcd s = .next t) : t.res.x = (euclid s.ops.a s.ops.b).bezoutX := by
  rw [eq_of_exec_extgcd h]; rfl

theorem extgcd_res_y {s t : State} (h : exec .extgcd s = .next t) : t.res.y = (euclid s.ops.a s.ops.b).bezoutY := by
  rw [eq_of_exec_extgcd h]; rfl

/-- Row k of the trace is what the registers hold of row k of the run. -/
theorem extgcd_trace_getElem? {s t : State} (h : exec .extgcd s = .next t) {k : Nat} (hk : k < s.cfg.traceDepth) :
    t.res.trace[k]? = some (traceRow (euclid s.ops.a s.ops.b).rows k) := by
  rw [eq_of_exec_extgcd h]
  simp [hk]

/-- Settles O35: the run keeps its Bezout combination, its greatest common divisor and, past the first iteration, the sign of `B`. -/
theorem extgcdGivesSignedGcdAndBezout : Obligations.ExtgcdGivesSignedGcdAndBezout := by
  intro s
  refine ⟨_, exec_extgcd s, rfl, euclid_bezout s.ops.a s.ops.b, euclid_gcd_natAbs s.ops.a s.ops.b, fun hb => ?_, fun hb => ?_, fun hb => ?_⟩
  · simp [hb, euclid_zero]
  · have hsign := euclid_sign (a := s.ops.a) hb.ne'
    rw [Int.sign_eq_one_of_pos hb, one_mul] at hsign
    exact hsign
  · have hsign := euclid_sign (a := s.ops.a) hb.ne
    rw [Int.sign_eq_neg_one_of_neg hb, neg_one_mul] at hsign
    exact Int.neg_pos.mp hsign

/-! ## The length of the run (R41, R115) -/

/-- `TRACE_LEN` holds the number of iterations itself, which is at most the number of rows held. -/
theorem extgcd_traceLen {s t : State} (hp : s.cfg.legal) (hb : fitsSigned s.cfg.w s.ops.b) (h : exec .extgcd s = .next t) :
    t.res.traceLen.toNat = (euclid s.ops.a s.ops.b).rows.length ∧ (euclid s.ops.a s.ops.b).rows.length ≤ s.cfg.traceDepth := by
  have hbound := euclid_rows_length (a := s.ops.a) hp.1 hb
  rw [eq_of_exec_extgcd h]
  exact ⟨traceLen_euclid hp hb, by omega⟩

/-- Settles O38: `TRACE_LEN` is the run's length, which R115 bounds. -/
theorem extgcdTraceNeverOverflows : Obligations.ExtgcdTraceNeverOverflows := by
  intro s hp hb
  obtain ⟨hlen, hdepth⟩ := extgcd_traceLen hp hb (exec_extgcd s)
  exact ⟨_, exec_extgcd s, hlen, hlen.trans_le (euclid_rows_length hp.1 hb), hlen.trans_le hdepth⟩

/-! ## The run as iterates of one iteration (R111) -/

/-- The values at the top of iteration k of `EEA(a, b)`. -/
def euclidIterate (a b : Int) (k : Nat) : EuclidState := euclidStep^[k] (euclidStart a b)

theorem euclidIterate_succ (a b : Int) (k : Nat) : euclidIterate a b (k + 1) = euclidStep (euclidIterate a b k) :=
  Function.iterate_succ_apply' _ _ _

/-- The loop appends the row of each iterate, none with remainder 0, and ends with the iterate past its last row. -/
theorem euclidLoop_iterates (fuel : Nat) (e : EuclidState) :
    (euclidLoop fuel e).2 = euclidStep^[(euclidLoop fuel e).1.length] e
      ∧ ∀ k row, (euclidLoop fuel e).1[k]? = some row → (euclidStep^[k] e).r ≠ 0 ∧ row = euclidRow (euclidStep^[k] e) := by
  induction fuel generalizing e with
  | zero => simp [euclidLoop_zero]
  | succ n ih =>
    by_cases hr : e.r = 0
    · simp [euclidLoop_stop _ hr]
    · obtain ⟨hend, hrows⟩ := ih (euclidStep e)
      rw [euclidLoop_go _ hr]
      refine ⟨hend, fun k row hrow => ?_⟩
      cases k with
      | zero => exact ⟨hr, (Option.some.inj hrow).symm⟩
      | succ k => exact hrows k row hrow

/-- Row k of the run is that of iterate k, whose remainder is not 0. -/
theorem euclid_rows_getElem {a b : Int} {k : Nat} (hk : k < (euclid a b).rows.length) :
    (euclidIterate a b k).r ≠ 0 ∧ (euclid a b).rows[k] = euclidRow (euclidIterate a b k) :=
  (euclidLoop_iterates b.natAbs (euclidStart a b)).2 k _ (List.getElem?_eq_getElem hk)

theorem euclidLoop_end (a b : Int) :
    (euclidLoop b.natAbs (euclidStart a b)).2 = euclidIterate a b (euclid a b).rows.length :=
  (euclidLoop_iterates b.natAbs (euclidStart a b)).1

theorem euclidIterate_end_r (a b : Int) : (euclidIterate a b (euclid a b).rows.length).r = 0 := by
  rw [← euclidLoop_end]
  exact euclidLoop_ends _ _ le_rfl

/-- The results are the previous values of the iterate past the last row. -/
theorem euclid_eq_end (a b : Int) :
    (euclid a b).gcd = (euclidIterate a b (euclid a b).rows.length).rPrev
      ∧ (euclid a b).bezoutX = (euclidIterate a b (euclid a b).rows.length).xPrev
      ∧ (euclid a b).bezoutY = (euclidIterate a b (euclid a b).rows.length).yPrev := by
  rw [← euclidLoop_end]
  exact ⟨rfl, rfl, rfl⟩

theorem euclidIterate_bezout (a b : Int) (k : Nat) : Bezout a b (euclidIterate a b k) := by
  induction k with
  | zero => exact bezout_start a b
  | succ k ih => rw [euclidIterate_succ]; exact bezout_step ih

theorem ne_zero_of_rows {a b : Int} (h : 0 < (euclid a b).rows.length) : b ≠ 0 := by
  rintro rfl
  simp [euclid_zero] at h

theorem late_end {a b : Int} (hb : b ≠ 0) : Late a b (euclidIterate a b (euclid a b).rows.length) := by
  rw [← euclidLoop_end, euclid_run hb]
  exact euclidLoop_invariant (fun _ hr h => late_step hb hr h) _ _ (late_first hb)

/-! ## The coefficients of the last row -/

/-- At remainder 0 only the current coefficient weighs: times the previous remainder it is the constant, in magnitude. -/
theorem alternates_stop {sg t z zPrev : Int} {c : Nat} {e : EuclidState} (hs : sg = 1 ∨ sg = -1) (ht : t = 1 ∨ t = -1)
    (h : Alternates sg t c z zPrev e) (hr : e.r = 0) : z.natAbs * e.rPrev.natAbs = c := by
  have hweigh := h.weigh
  rw [hr, mul_zero, mul_zero, sub_zero] at hweigh
  have hunit : t.natAbs = 1 ∧ sg.natAbs = 1 := ⟨Int.natAbs_eq_iff.mpr ht, Int.natAbs_eq_iff.mpr hs⟩
  simpa [Int.natAbs_mul, hunit] using congrArg Int.natAbs hweigh

/-- Where a late run stops, the coefficients times the gcd are the operands, in magnitude (R112). -/
theorem late_stop {a b : Int} {e : EuclidState} (hb : b ≠ 0) (h : Late a b e) (hr : e.r = 0) :
    e.x.natAbs * e.rPrev.natAbs = b.natAbs ∧ e.y.natAbs * e.rPrev.natAbs = a.natAbs := by
  have hs : b.sign = 1 ∨ b.sign = -1 := (sign_cases hb).imp And.left And.left
  refine ⟨?_, ?_⟩
  · obtain ⟨t, ht, hx⟩ := h.x
    exact alternates_stop hs ht hx hr
  · rcases h.y with ⟨t, ht, hy⟩ | ⟨hrPrev, _, _, hweigh, _⟩
    · exact alternates_stop hs ht hy hr
    · rw [hr, Int.natAbs_zero, Nat.cast_zero, add_zero] at hweigh
      rw [hrPrev, ← Int.natAbs_natCast a.natAbs, ← hweigh, Int.natAbs_mul, Int.natAbs_natCast]

/-! ## The trace shows the run (R42, R113, R118) -/

/-- The trace in `t`, read from entry k on, shows the working values `e`. -/
structure TraceShows (s t : State) (k : Nat) (e : EuclidState) : Prop where
  rPrev : traceR s t k = e.rPrev
  r : traceR s t (k + 1) = e.r
  xPrev : traceX t k = e.xPrev
  x : traceX t (k + 1) = e.x
  yPrev : traceY t k = e.yPrev
  y : traceY t (k + 1) = e.y

/-- The trace row that the iteration beginning at `e` leaves as row k. -/
def shownRow (k : Nat) (e : EuclidState) : TraceRow :=
  { idx := BitVec.ofNat 8 k, qv := decide (k ≠ 0), rem := (euclidStep e).r, q := euclidQuotient e, x := (euclidStep e).x
    y := (euclidStep e).y }

theorem traceShows_start (s t : State) : TraceShows s t 0 (euclidStart s.ops.a s.ops.b) := ⟨rfl, rfl, rfl, rfl, rfl, rfl⟩

theorem traceShows_step {s t : State} {k : Nat} {e : EuclidState} (h : TraceShows s t k e)
    (hrow : t.res.trace[k]? = some (shownRow k e)) : TraceShows s t (k + 1) (euclidStep e) := by
  have hget : t.res.trace.getD k TraceRow.zero = shownRow k e := by simp [hrow]
  exact ⟨h.r, congrArg TraceRow.rem hget, h.x, congrArg TraceRow.x hget, h.y, congrArg TraceRow.y hget⟩

section Shown

variable {s t : State} (hp : s.cfg.legal) (hb : fitsSigned s.cfg.w s.ops.b) (h : exec .extgcd s = .next t) {k : Nat}
include hp hb h

theorem extgcd_trace_row (hk : k < (euclid s.ops.a s.ops.b).rows.length) :
    t.res.trace[k]? = some (shownRow k (euclidIterate s.ops.a s.ops.b k)) := by
  obtain ⟨_, hdepth⟩ := extgcd_traceLen hp hb h
  obtain ⟨_, hqv⟩ := euclid_row_index (List.getElem?_eq_getElem hk)
  rw [extgcd_trace_getElem? h (hk.trans_le hdepth), traceRow_of_lt hk, hqv, (euclid_rows_getElem hk).2]
  rfl

theorem extgcd_traceShows (hk : k ≤ (euclid s.ops.a s.ops.b).rows.length) : TraceShows s t k (euclidIterate s.ops.a s.ops.b k) := by
  induction k with
  | zero => exact traceShows_start s t
  | succ k ih =>
    rw [euclidIterate_succ]
    exact traceShows_step (ih (by omega)) (extgcd_trace_row hp hb h hk)

end Shown

/-- Settles O36: the trace shows the iterates of the run, entry by entry (`extgcd_traceShows`), and the results are those of the iterate
it stops at. -/
theorem extgcdTraceIsTheEuclidRun : Obligations.ExtgcdTraceIsTheEuclidRun := by
  intro s t hp hb h
  obtain ⟨hlen, hdepth⟩ := extgcd_traceLen hp hb h
  obtain ⟨hg, hx, hy⟩ := euclid_eq_end s.ops.a s.ops.b
  have hstop := euclidIterate_end_r s.ops.a s.ops.b
  have hend := extgcd_traceShows hp hb h le_rfl
  rw [hlen, extgcd_res_g h, extgcd_res_x h, extgcd_res_y h]
  refine ⟨fun k hk => ?_, hend.r.trans hstop, hg.trans hend.rPrev.symm, hx.trans hend.xPrev.symm, hy.trans hend.yPrev.symm,
    fun k hk hle => ?_, fun hpos => ?_⟩
  · have hshow := extgcd_traceShows hp hb h hk.le
    have hbez := euclidIterate_bezout s.ops.a s.ops.b (k + 1)
    have hsmall : k < 256 := by omega
    rw [euclidIterate_succ] at hbez
    rw [hshow.rPrev, hshow.r, hshow.xPrev, hshow.x, hshow.yPrev, hshow.y]
    exact ⟨_, extgcd_trace_row hp hb h hk, Nat.mod_eq_of_lt hsmall, rfl, (euclid_rows_getElem hk).1, rfl, rfl, rfl, rfl, hbez.2⟩
  · rw [extgcd_trace_getElem? h hk, traceRow_of_le hle]
    rfl
  · have hb0 := ne_zero_of_rows hpos
    rw [hend.x, hend.y, hg]
    exact late_stop hb0 (late_end hb0) hstop

/-! ## Bounds (R114) -/

/-- In every row the coefficients are bounded by the operands over the gcd, and the quotient by the operands. -/
theorem euclid_row_bounds {a b : Int} {row : EuclidRow} (hrow : row ∈ (euclid a b).rows) :
    row.bezoutX.natAbs ≤ b.natAbs / Int.gcd a b ∧ row.bezoutY.natAbs ≤ a.natAbs / Int.gcd a b
      ∧ row.quotient.natAbs ≤ max a.natAbs b.natAbs := by
  have hb := ne_zero_of_rows (List.length_pos_of_mem hrow)
  have hpos : 0 < Int.gcd a b := Int.gcd_pos_of_ne_zero_right a hb
  obtain ⟨⟨e, he, _, hx, hy⟩, hq⟩ := euclid_row hb row hrow
  rw [hx, hy, Nat.le_div_iff_mul_le hpos, Nat.le_div_iff_mul_le hpos]
  exact ⟨late_x_gcd he.late, late_y_gcd hb he.late, hq⟩

theorem euclid_result_bounds (a b : Int) :
    (euclid a b).bezoutX.natAbs ≤ max 1 b.natAbs ∧ (euclid a b).bezoutY.natAbs ≤ max 1 a.natAbs := by
  by_cases hb : b = 0
  · simp [hb, euclid_zero]
  · obtain ⟨e, he, _, _, hx, hy⟩ := euclid_end (a := a) hb
    rw [hx, hy]
    exact ⟨he.xPrev.trans (le_max_right ..), he.yPrev⟩

/-- Settles O37: what R114 bounds by the operands is at most 2^(W-1), the largest magnitude of a W-bit operand. -/
theorem extgcdValuesFitTheirRegisters : Obligations.ExtgcdValuesFitTheirRegisters := by
  intro s t hp ha hb h
  obtain ⟨hlen, hdepth⟩ := extgcd_traceLen hp hb h
  obtain ⟨hx, hy⟩ := euclid_result_bounds s.ops.a s.ops.b
  have hA := natAbs_le_of_fitsSigned ha
  have hB := natAbs_le_of_fitsSigned hb
  have hone : 1 ≤ 2 ^ (s.cfg.w - 1) := Nat.one_le_two_pow
  rw [hlen, extgcd_res_g h, extgcd_res_x h, extgcd_res_y h, euclid_gcd_natAbs]
  refine ⟨(euclid_fits hp.1 ha hb).1, hx.trans (max_le hone hB), hy.trans (max_le hone hA), fun k hk => ?_⟩
  obtain ⟨hrowX, hrowY, hrowQ⟩ := euclid_row_bounds (List.getElem_mem hk)
  refine ⟨_, extgcd_trace_getElem? h (hk.trans_le hdepth), ?_⟩
  rw [traceRow_of_lt hk]
  exact ⟨(euclid_row_fits (Nat.le_of_succ_le hp.1) ha hb _ (List.getElem_mem hk)).1, hrowQ.trans (max_le hA hB),
    (hrowX.trans (Nat.div_le_self ..)).trans hB, (hrowY.trans (Nat.div_le_self ..)).trans hA,
    hrowX.trans (le_max_right ..), hrowY.trans (le_max_right ..)⟩

/-! ## `MODINV` (R116, R117, R119) -/

theorem exec_modinv_of_lt {s : State} (h : s.ops.m < 1) : exec .modinv s = conclude s (.error .invalidOperand) :=
  congrArg (conclude s) (if_pos h)

theorem exec_modinv_of_error {s : State} {c : ErrCode} (hm : 1 ≤ s.ops.m)
    (h : inverseMod .notInvertible s.ops.a s.ops.m = .error c) : exec .modinv s = conclude s (.error c) := by
  rw [exec, execModinv, if_neg (not_lt.mpr hm), h]

theorem exec_modinv_of_ok {s : State} {v : Int} (hm : 1 ≤ s.ops.m) (h : inverseMod .notInvertible s.ops.a s.ops.m = .ok v) :
    exec .modinv s = conclude s (.ok (putV v s)) := by
  rw [exec, execModinv, if_neg (not_lt.mpr hm), h]

/-- Settles O39, by the two outcomes of the modular inverse (`inverseMod_cases`). -/
theorem modinvInvertsOrFails : Obligations.ModinvInvertsOrFails := by
  intro s
  refine ⟨exec_modinv_of_lt, fun hm hgcd => ?_, fun hm hgcd => ?_⟩
  · rcases inverseMod_cases .notInvertible s.ops.a hm with ⟨_, hinv⟩ | ⟨hone, _⟩
    · exact exec_modinv_of_error hm hinv
    · exact absurd hone hgcd
  · rcases inverseMod_cases .notInvertible s.ops.a hm with ⟨hne, _⟩ | ⟨_, v, hinv, h0, hlt, hdvd⟩
    · exact absurd hgcd hne
    · refine ⟨v, exec_modinv_of_ok hm hinv, h0, hlt, fun hm2 => ?_⟩
      rw [Int.emod_eq_emod_iff_emod_sub_eq_zero.mpr (Int.emod_eq_zero_of_dvd hdvd)]
      exact Int.emod_eq_of_lt Int.one_nonneg hm2

end Sys2Proof.Machine
end

section
/-! PROOFS. O40 to O48: field elements as residues of polynomials modulo m(x), field multiplication as the product of residues, the
invariants of the inverse's loop, and the GF(2^8) commands. -/

namespace Sys2Proof.Machine

open Sys2Proof.Config Polynomial

/-! ## The degree of a number (R12) -/

theorem neg_one_le_deg (v : Nat) : -1 ≤ deg v := by unfold deg; omega

theorem deg_zero : deg 0 = -1 := rfl

theorem deg_of_ne_zero {v : Nat} (h : v ≠ 0) : deg v = Nat.log2 v := by simp [deg, bitlen, h]

theorem deg_lt_iff {v n : Nat} : deg v < n ↔ v < 2 ^ n := by
  by_cases h : v = 0
  · simp [h, deg_zero]; omega
  · rw [deg_of_ne_zero h, Nat.cast_lt, Nat.log2_lt h]

theorem deg_le_iff {v : Nat} {d : Int} (hd : -1 ≤ d) : deg v ≤ d ↔ v < 2 ^ (d + 1).toNat := by
  rw [← deg_lt_iff, Int.toNat_of_nonneg (by omega), Int.lt_add_one_iff]

theorem deg_xor_le {u v : Nat} {d : Int} (hu : deg u ≤ d) (hv : deg v ≤ d) : deg (u ^^^ v) ≤ d := by
  have hd := (neg_one_le_deg u).trans hu
  rw [deg_le_iff hd] at hu hv ⊢
  exact Nat.xor_lt_two_pow hu hv

theorem deg_shiftLeft_le (v j : Nat) : deg (v <<< j) ≤ deg v + j := by
  have hv := neg_one_le_deg v
  have hsum : (deg v + j + 1).toNat = (deg v + 1).toNat + j := by omega
  rw [deg_le_iff (by omega), hsum, Nat.shiftLeft_eq, pow_add]
  exact Nat.mul_lt_mul_of_pos_right ((deg_le_iff hv).mp le_rfl) (by positivity)

theorem testBit_eq_false_of_lt {v n i : Nat} (hv : v < 2 ^ n) (hi : n ≤ i) : v.testBit i = false :=
  Nat.testBit_lt_two_pow (hv.trans_le (Nat.pow_le_pow_right (by decide) hi))

theorem lt_of_top_bit_clear {v n : Nat} (hv : v < 2 ^ (n + 1)) (h : v.testBit n = false) : v < 2 ^ n := by
  refine Nat.lt_pow_two_of_testBit _ fun i hi => ?_
  rcases hi.eq_or_lt with rfl | hlt
  · exact h
  · exact testBit_eq_false_of_lt hv hlt

/-- Two numbers with the same top bit lose it in their exclusive or. -/
theorem xor_lt_of_top_bit {u v n : Nat} (hu : u < 2 ^ (n + 1)) (hv : v < 2 ^ (n + 1)) (hun : u.testBit n = true)
    (hvn : v.testBit n = true) : u ^^^ v < 2 ^ n :=
  lt_of_top_bit_clear (Nat.xor_lt_two_pow hu hv) (by rw [Nat.testBit_xor, hun, hvn]; rfl)

theorem testBit_deg {v n : Nat} (h : deg v = n) : v.testBit n = true := by
  have hv : v ≠ 0 := by rintro rfl; rw [deg_zero] at h; omega
  rw [deg_of_ne_zero hv, Nat.cast_inj] at h
  rw [← h]
  exact Nat.testBit_log2 hv

/-- Aligned by the shift, the leading bits cancel: one XOR lowers the degree (R145). -/
theorem deg_xor_shiftLeft_lt {u v : Nat} (hv : 0 ≤ deg v) (huv : deg v ≤ deg u) :
    deg (u ^^^ (v <<< (deg u - deg v).toNat)) < deg u := by
  obtain ⟨n, hn⟩ := Int.eq_ofNat_of_zero_le hv
  obtain ⟨j, hj⟩ := Int.eq_ofNat_of_zero_le (a := deg u - deg v) (by omega)
  have hu : deg u = (n + j : Nat) := by push_cast; omega
  have hshift := deg_shiftLeft_le v j
  have htop : (v <<< j).testBit (n + j) = true := by simp [Nat.testBit_shiftLeft, testBit_deg hn]
  rw [hj, Int.toNat_natCast, hu, deg_lt_iff]
  refine xor_lt_of_top_bit (deg_lt_iff.mp ?_) (deg_lt_iff.mp ?_) (testBit_deg hu) htop <;> push_cast <;> omega

/-! ## Numbers as polynomials over GF(2), and their residues modulo m(x) (R140) -/

theorem polyOf_coeff (v i : Nat) : (polyOf v).coeff i = if i < 16 ∧ v.testBit i then 1 else 0 := by
  have hterm (j : Nat) : (if v.testBit j then (X : (ZMod 2)[X]) ^ j else 0).coeff i = if j = i then if v.testBit i then 1 else 0 else 0 := by
    by_cases hji : j = i
    · subst hji; by_cases hbit : v.testBit j <;> simp [hbit]
    · by_cases hbit : v.testBit j <;> simp [hbit, hji, coeff_X_pow, Ne.symm hji]
  simp only [polyOf, finsetSum_coeff, hterm, Finset.sum_ite_eq', Finset.mem_range, ite_and]

theorem polyOf_coeff_of_lt {v : Nat} (hv : v < 2 ^ 16) (i : Nat) : (polyOf v).coeff i = if v.testBit i then 1 else 0 := by
  rw [polyOf_coeff]
  by_cases hi : i < 16
  · simp [hi]
  · simp [testBit_eq_false_of_lt hv (not_lt.mp hi)]

theorem polyOf_injective {u v : Nat} (hu : u < 2 ^ 16) (hv : v < 2 ^ 16) (h : polyOf u = polyOf v) : u = v := by
  refine Nat.eq_of_testBit_eq fun i => ?_
  have hi := congrArg (coeff · i) h
  simp only [polyOf_coeff_of_lt hu, polyOf_coeff_of_lt hv] at hi
  cases hui : u.testBit i <;> cases hvi : v.testBit i <;> simp_all

theorem polyOf_degree_lt {v n : Nat} (hv : v < 2 ^ n) : (polyOf v).degree < n := by
  refine (degree_lt_iff_coeff_zero _ _).mpr fun i hi => ?_
  simp [polyOf_coeff, testBit_eq_false_of_lt hv hi]

/-- The exclusive or adds the polynomials (R141). -/
theorem polyOf_xor (u v : Nat) : polyOf (u ^^^ v) = polyOf u + polyOf v := by
  ext i
  rw [coeff_add, polyOf_coeff, polyOf_coeff, polyOf_coeff, Nat.testBit_xor]
  by_cases hi : i < 16
  · cases u.testBit i <;> cases v.testBit i <;> simp [hi]; decide
  · simp [hi]

/-- A shift that stays within 16 bits multiplies the polynomial by a power of x. -/
theorem polyOf_shiftLeft {v j : Nat} (h : v <<< j < 2 ^ 16) : polyOf (v <<< j) = X ^ j * polyOf v := by
  have hv : v < 2 ^ 16 := (by rw [Nat.shiftLeft_eq]; exact Nat.le_mul_of_pos_right v (by positivity) : v ≤ v <<< j).trans_lt h
  ext i
  rw [coeff_X_pow_mul', polyOf_coeff_of_lt h, polyOf_coeff_of_lt hv, Nat.testBit_shiftLeft]
  by_cases hij : j ≤ i <;> simp [hij]

theorem polyOf_zero : polyOf 0 = 0 := by simp [polyOf]

theorem polyOf_one : polyOf 1 = 1 := by
  ext i
  rw [polyOf_coeff_of_lt (by decide), coeff_one]
  cases i <;> simp [Nat.testBit_succ]

theorem polyOf_poly : polyOf poly = reductionPoly := by
  have hbits : poly = (1 <<< 8) ^^^ (1 <<< 4) ^^^ (1 <<< 3) ^^^ (1 <<< 1) ^^^ 1 := by decide
  rw [hbits]
  simp only [polyOf_xor]
  rw [polyOf_shiftLeft (by decide), polyOf_shiftLeft (by decide), polyOf_shiftLeft (by decide), polyOf_shiftLeft (by decide), polyOf_one,
    reductionPoly]
  ring

theorem reductionPoly_degree : reductionPoly.degree = 8 := by unfold reductionPoly; compute_degree!

/-- The residue class modulo m(x) of the polynomial of a number. -/
noncomputable def residue (v : Nat) : AdjoinRoot reductionPoly := AdjoinRoot.mk reductionPoly (polyOf v)

theorem residue_mul_eq_iff {u v w : Nat} :
    residue u * residue v = residue w ↔ reductionPoly ∣ polyOf u * polyOf v - polyOf w := by
  rw [residue, residue, residue, ← map_mul, AdjoinRoot.mk_eq_mk]

@[simp] theorem residue_zero : residue 0 = 0 := by rw [residue, polyOf_zero, map_zero]

@[simp] theorem residue_one : residue 1 = 1 := by rw [residue, polyOf_one, map_one]

@[simp] theorem residue_poly : residue poly = 0 := by rw [residue, polyOf_poly, AdjoinRoot.mk_self]

@[simp] theorem residue_xor (u v : Nat) : residue (u ^^^ v) = residue u + residue v := by rw [residue, polyOf_xor, map_add]; rfl

theorem residue_shiftLeft {v j : Nat} (h : v <<< j < 2 ^ 16) :
    residue (v <<< j) = AdjoinRoot.root reductionPoly ^ j * residue v := by
  rw [residue, polyOf_shiftLeft h, map_mul, map_pow, AdjoinRoot.mk_X]; rfl

/-- Below 2^8 every residue is the residue of one number: m(x) has degree 8. -/
theorem residue_injective {u v : Nat} (hu : u < 2 ^ 8) (hv : v < 2 ^ 8) (h : residue u = residue v) : u = v := by
  have hdegree : (polyOf u - polyOf v).degree < reductionPoly.degree := by
    rw [reductionPoly_degree]
    exact (degree_sub_le _ _).trans_lt (max_lt (polyOf_degree_lt hu) (polyOf_degree_lt hv))
  have hzero := eq_zero_of_dvd_of_degree_lt (AdjoinRoot.mk_eq_mk.mp h) hdegree
  exact polyOf_injective (by omega) (by omega) (sub_eq_zero.mp hzero)

theorem byte_eq_of_residue {a b : Byte} (h : residue a.toNat = residue b.toNat) : a = b :=
  BitVec.eq_of_toNat_eq (residue_injective a.isLt b.isLt h)

/-! ## Multiplication (R143) -/

/-- The first phase of the multiplication, cut after the low `n` bits of `b`. -/
def gfPartialProduct (a b : Byte) (n : Nat) : BitVec 16 :=
  (List.range n).foldl (fun p i => if b.getLsbD i then p ^^^ (a.setWidth 16 <<< i) else p) 0#16

theorem gfProduct_eq_partial (a b : Byte) : gfProduct a b = gfPartialProduct a b 8 := rfl

theorem gfPartialProduct_succ (a b : Byte) (n : Nat) :
    gfPartialProduct a b (n + 1)
      = if b.getLsbD n then gfPartialProduct a b n ^^^ (a.setWidth 16 <<< n) else gfPartialProduct a b n := by
  rw [gfPartialProduct, List.range_succ, List.foldl_append]; rfl

theorem toNat_setWidth_shiftLeft (a : Byte) {n : Nat} (hn : n ≤ 8) :
    (a.setWidth 16 <<< n).toNat = a.toNat <<< n ∧ a.toNat <<< n < 2 ^ 16 := by
  have hbound : a.toNat <<< n < 2 ^ 16 := by
    rw [Nat.shiftLeft_eq]
    have hpow : 2 ^ n ≤ 2 ^ 8 := Nat.pow_le_pow_right (by decide) hn
    have := Nat.mul_le_mul (Nat.le_of_lt_succ a.isLt) hpow
    omega
  have ha : a.toNat % 2 ^ 16 = a.toNat := Nat.mod_eq_of_lt (by omega)
  rw [BitVec.toNat_shiftLeft, BitVec.toNat_setWidth, ha]
  exact ⟨Nat.mod_eq_of_lt hbound, hbound⟩

/-- After the low `n` bits of `b` the product is that of `a` and these bits. -/
theorem polyOf_gfPartialProduct (a b : Byte) {n : Nat} (hn : n ≤ 8) :
    polyOf (gfPartialProduct a b n).toNat = polyOf a.toNat * ∑ i ∈ Finset.range n, if b.toNat.testBit i then X ^ i else 0 := by
  induction n with
  | zero => simp [gfPartialProduct, polyOf_zero]
  | succ n ih =>
    obtain ⟨hshift, hbound⟩ := toNat_setWidth_shiftLeft a (n := n) (by omega)
    rw [gfPartialProduct_succ, Finset.sum_range_succ, mul_add, ← ih (by omega), BitVec.getLsbD]
    cases b.toNat.testBit n with
    | false => simp
    | true => simp [polyOf_xor, hshift, polyOf_shiftLeft hbound, mul_comm]

/-- The carry-less product is the product of the polynomials. -/
theorem polyOf_gfProduct (a b : Byte) : polyOf (gfProduct a b).toNat = polyOf a.toNat * polyOf b.toNat := by
  have hhigh : ∀ i ∈ Finset.range 16, i ∉ Finset.range 8 → (if b.toNat.testBit i then (X : (ZMod 2)[X]) ^ i else 0) = 0 := by
    intro i _ hi
    rw [Finset.mem_range, not_lt] at hi
    simp [testBit_eq_false_of_lt b.isLt hi]
  rw [gfProduct_eq_partial, polyOf_gfPartialProduct a b le_rfl, Finset.sum_subset (by simp) hhigh, ← polyOf]

/-- One position of the scan that reduces modulo `POLY`. -/
def gfReduceAt (p : BitVec 16) (i : Nat) : BitVec 16 := if p.getLsbD i then p ^^^ (BitVec.ofNat 16 poly <<< (i - 8)) else p

theorem gfReduce_eq_foldl (p : BitVec 16) : gfReduce p = (List.range' 8 8).reverse.foldl gfReduceAt p := rfl

theorem toNat_poly_shiftLeft {n : Nat} (hn : n < 8) :
    (BitVec.ofNat 16 poly <<< n).toNat = poly <<< n ∧ poly <<< n < 2 ^ (8 + n + 1) ∧ (poly <<< n).testBit (8 + n) = true := by
  have hall : ∀ n < 8, (BitVec.ofNat 16 poly <<< n).toNat = poly <<< n ∧ poly <<< n < 2 ^ (8 + n + 1)
      ∧ (poly <<< n).testBit (8 + n) = true := by decide
  exact hall n hn

/-- The scan's step at position 8 + n clears that bit, the highest there can be, and keeps the residue. -/
theorem gfReduceAt_spec {p : BitVec 16} {n : Nat} (hn : n < 8) (hp : p.toNat < 2 ^ (8 + n + 1)) :
    (gfReduceAt p (8 + n)).toNat < 2 ^ (8 + n) ∧ residue (gfReduceAt p (8 + n)).toNat = residue p.toNat := by
  obtain ⟨hshift, hlt, htop⟩ := toNat_poly_shiftLeft hn
  have hbound : poly <<< n < 2 ^ 16 := hlt.trans_le (Nat.pow_le_pow_right (by decide) (by omega))
  cases hbit : p.toNat.testBit (8 + n) with
  | true =>
    have hstep : (gfReduceAt p (8 + n)).toNat = p.toNat ^^^ (poly <<< n) := by
      simp [gfReduceAt, BitVec.getLsbD, hbit, -BitVec.toNat_shiftLeft, hshift]
    rw [hstep, residue_xor, residue_shiftLeft hbound, residue_poly, mul_zero, add_zero]
    exact ⟨xor_lt_of_top_bit hp hlt hbit htop, rfl⟩
  | false =>
    have hstep : gfReduceAt p (8 + n) = p := by simp [gfReduceAt, BitVec.getLsbD, hbit]
    rw [hstep]
    exact ⟨lt_of_top_bit_clear hp hbit, rfl⟩

/-- The scan down from position 8 + n - 1 leaves 8 bits, and keeps the residue. -/
theorem foldl_gfReduceAt {n : Nat} (hn : n ≤ 8) {p : BitVec 16} (hp : p.toNat < 2 ^ (8 + n)) :
    ((List.range' 8 n).reverse.foldl gfReduceAt p).toNat < 2 ^ 8
      ∧ residue ((List.range' 8 n).reverse.foldl gfReduceAt p).toNat = residue p.toNat := by
  induction n generalizing p with
  | zero => exact ⟨hp, rfl⟩
  | succ n ih =>
    obtain ⟨hlt, hres⟩ := gfReduceAt_spec (n := n) (by omega) hp
    rw [List.range'_concat, List.reverse_append, one_mul]
    exact (ih (by omega) hlt).imp_right (·.trans hres)

/-- Field multiplication multiplies residues. -/
@[simp] theorem residue_gfMul (a b : Byte) : residue (gfMul a b).toNat = residue a.toNat * residue b.toNat := by
  obtain ⟨hlt, hres⟩ := foldl_gfReduceAt le_rfl (gfProduct a b).isLt
  have hnat : (gfMul a b).toNat = (gfReduce (gfProduct a b)).toNat := by
    rw [gfMul, BitVec.toNat_setWidth]
    exact Nat.mod_eq_of_lt hlt
  rw [hnat, gfReduce_eq_foldl, hres, residue, polyOf_gfProduct, map_mul]; rfl

theorem gfMul_comm (a b : Byte) : gfMul a b = gfMul b a := byte_eq_of_residue (by simp [mul_comm])

theorem gfMul_assoc (a b c : Byte) : gfMul (gfMul a b) c = gfMul a (gfMul b c) := byte_eq_of_residue (by simp [mul_assoc])

@[simp] theorem gfMul_zero (a : Byte) : gfMul a 0#8 = 0#8 := byte_eq_of_residue (by simp)

@[simp] theorem gfMul_one (a : Byte) : gfMul a 1#8 = a := byte_eq_of_residue (by simp)

@[simp] theorem zero_gfMul (a : Byte) : gfMul 0#8 a = 0#8 := by rw [gfMul_comm, gfMul_zero]

@[simp] theorem one_gfMul (a : Byte) : gfMul 1#8 a = a := by rw [gfMul_comm, gfMul_one]

theorem gfMul_isPolynomialProduct (a b : Byte) : reductionPoly ∣ polyOf a.toNat * polyOf b.toNat - polyOf (gfMul a b).toNat :=
  residue_mul_eq_iff.mp (residue_gfMul a b).symm

/-- Settles O43: a field element is its residue, and residues multiply as in any commutative ring. -/
theorem gfMultiplicationLaws : Obligations.GfMultiplicationLaws :=
  ⟨fun a b => ⟨gfMul_comm a b, gfMul_isPolynomialProduct a b⟩, fun a => ⟨gfMul_zero a, zero_gfMul a, gfMul_one a⟩,
    by decide, by decide, by decide⟩

/-! ## The inverse's loop (R145) -/

theorem gfStep_cases (g : GfPairs) :
    (deg (gfXor g).r0 < deg g.r1 ∧ gfStep g = gfSwap (gfXor g)) ∨ (deg g.r1 ≤ deg (gfXor g).r0 ∧ gfStep g = gfXor g) := by
  by_cases h : deg (gfXor g).r0 < deg g.r1
  · exact .inl ⟨h, if_pos h⟩
  · exact .inr ⟨not_lt.mp h, if_neg h⟩

theorem gfLoop_stop (fuel : Nat) {g : GfPairs} (h : deg g.r1 ≤ 0) : gfLoop fuel g = g := by
  cases fuel with
  | zero => rfl
  | succ fuel => exact if_pos h

theorem gfLoop_go (fuel : Nat) {g : GfPairs} (h : ¬deg g.r1 ≤ 0) : gfLoop (fuel + 1) g = gfLoop fuel (gfStep g) := if_neg h

/-- What holds at the start and is kept by every step the loop takes holds whenever the loop is left. -/
theorem gfLoop_invariant {P : GfPairs → Prop} (hstep : ∀ g, 1 ≤ deg g.r1 → P g → P (gfStep g)) (fuel : Nat) {g : GfPairs} (h : P g) :
    P (gfLoop fuel g) := by
  induction fuel generalizing g with
  | zero => exact h
  | succ fuel ih =>
    by_cases hstop : deg g.r1 ≤ 0
    · rwa [gfLoop_stop _ hstop]
    · rw [gfLoop_go _ hstop]
      exact ih (hstep g (by omega) h)

theorem gfLoop_add (m n : Nat) (g : GfPairs) : gfLoop (m + n) g = gfLoop n (gfLoop m g) := by
  induction m generalizing g with
  | zero => rw [Nat.zero_add]; rfl
  | succ m ih =>
    by_cases hstop : deg g.r1 ≤ 0
    · simp only [gfLoop_stop _ hstop]
    · rw [Nat.succ_add, gfLoop_go _ hstop, gfLoop_go _ hstop, ih]

/-- Coefficients `u0`, `u1` that go with remainders of degrees `d0`, `d1` in a run of Euclid on polynomials: the degree of each and that of
the other's remainder, which counts as 1 at least, come to at most `n`. -/
def CoeffBound (n d0 d1 : Int) (u0 u1 : Nat) : Prop := deg u0 + max d1 1 ≤ n ∧ deg u1 + d0 ≤ n

/-- One XOR keeps the bound where the remainder's degree falls from `d0` to `d`, with or without the swap after it. -/
theorem coeffBound_xor {n d0 d1 d : Int} {u0 u1 : Nat} (h : CoeffBound n d0 d1 u0 u1) (hd1 : 1 ≤ d1) (hd01 : d1 ≤ d0) (hd : d < d0) :
    CoeffBound n d d1 (u0 ^^^ (u1 <<< (d0 - d1).toNat)) u1 ∧ CoeffBound n d1 d u1 (u0 ^^^ (u1 <<< (d0 - d1).toNat)) := by
  obtain ⟨h0, h1⟩ := h
  have hshift := deg_shiftLeft_le u1 (d0 - d1).toNat
  have hxor : deg (u0 ^^^ (u1 <<< (d0 - d1).toNat)) ≤ n - d1 := deg_xor_le (by omega) (by omega)
  unfold CoeffBound
  omega

/-- The degrees throughout the loop: no shift is negative, and what bounds the coefficients (R145, fact 3). -/
structure GfBounded (g : GfPairs) : Prop where
  r0 : 1 ≤ deg g.r0
  le : deg g.r1 ≤ deg g.r0
  s : CoeffBound 8 (deg g.r0) (deg g.r1) g.s0 g.s1
  t : CoeffBound 7 (deg g.r0) (deg g.r1) g.t0 g.t1

theorem gfBounded_start (a : Byte) : GfBounded (gfStart a.toNat) := by
  have hpoly : deg poly = 8 := by decide
  have hone : deg 1 = 0 := by decide
  have ha : deg a.toNat < 8 := deg_lt_iff.mpr a.isLt
  constructor <;> simp only [gfStart, CoeffBound, hpoly, hone, deg_zero] <;> omega

theorem gfXor_r0_deg_lt {g : GfPairs} (hg : GfBounded g) (hr1 : 1 ≤ deg g.r1) : deg (gfXor g).r0 < deg g.r0 :=
  deg_xor_shiftLeft_lt (by omega) hg.le

theorem gfBounded_step (g : GfPairs) (hr1 : 1 ≤ deg g.r1) (hg : GfBounded g) : GfBounded (gfStep g) := by
  have hlt := gfXor_r0_deg_lt hg hr1
  obtain ⟨hs, hs'⟩ := coeffBound_xor hg.s hr1 hg.le hlt
  obtain ⟨ht, ht'⟩ := coeffBound_xor hg.t hr1 hg.le hlt
  rcases gfStep_cases g with ⟨hswap, hstep⟩ | ⟨hkeep, hstep⟩ <;> rw [hstep]
  · exact ⟨hr1, hswap.le, hs', ht'⟩
  · exact ⟨hr1.trans hkeep, hkeep, hs, ht⟩

theorem gfBounded_loop (a : Byte) (fuel : Nat) : GfBounded (gfLoop fuel (gfStart a.toNat)) :=
  gfLoop_invariant gfBounded_step fuel (gfBounded_start a)

theorem CoeffBound.lt {n : Nat} {d0 d1 : Int} {u0 u1 : Nat} (h : CoeffBound n d0 d1 u0 u1) (hd0 : 1 ≤ d0) : u0 < 2 ^ n ∧ u1 < 2 ^ n := by
  obtain ⟨h0, h1⟩ := h
  exact ⟨deg_lt_iff.mp (by omega), deg_lt_iff.mp (by omega)⟩

/-- R145, facts 1 and 2, at each of the 255 nonzero elements. The degrees alone bound the loop by 14 steps only. -/
theorem gfLoop_twelve_r1 (a : Byte) (ha : a ≠ 0#8) : (gfLoop 12 (gfStart a.toNat)).r1 = 1 := by
  revert a
  decide +kernel

theorem gfLoop_of_twelve_le {a : Byte} (ha : a ≠ 0#8) (n : Nat) :
    gfLoop (12 + n) (gfStart a.toNat) = gfLoop 12 (gfStart a.toNat) := by
  rw [gfLoop_add, gfLoop_stop n]
  rw [gfLoop_twelve_r1 a ha]
  decide

/-- Settles O44: twelve steps are enough for every element, and the degrees keep their bounds at every step (`gfBounded_step`). -/
theorem gfInverseLoopEnds : Obligations.GfInverseLoopEnds := by
  intro a ha
  refine ⟨⟨12, le_rfl, gfLoop_twelve_r1 a ha, gfLoop_of_twelve_le ha 4⟩, fun k => ?_⟩
  have hg := gfBounded_loop a k
  obtain ⟨hs0, hs1⟩ := CoeffBound.lt (n := 8) hg.s hg.r0
  obtain ⟨ht0, ht1⟩ := CoeffBound.lt (n := 7) hg.t hg.r0
  exact ⟨hg.le, hs0, hs1, ht0, ht1⟩

/-! ## The inverse (R146) -/

/-- Modulo m(x), each remainder of the loop is its coefficient times the element. -/
def GfBezout (a : Nat) (g : GfPairs) : Prop := residue g.r0 = residue g.s0 * residue a ∧ residue g.r1 = residue g.s1 * residue a

theorem gfBezout_start (a : Nat) : GfBezout a (gfStart a) := by simp [GfBezout, gfStart]

/-- In the loop's shifts nothing leaves the 16 bits of a polynomial. -/
theorem shiftLeft_lt_of_deg {v j : Nat} (h : deg v + j < 16) : v <<< j < 2 ^ 16 :=
  deg_lt_iff.mp ((deg_shiftLeft_le v j).trans_lt h)

theorem gfBezout_xor {a : Nat} {g : GfPairs} (hr1 : 1 ≤ deg g.r1) (hg : GfBounded g) (h : GfBezout a g) : GfBezout a (gfXor g) := by
  obtain ⟨hr0, hr1'⟩ := h
  obtain ⟨_, hs1⟩ := hg.s
  have hle := hg.le
  have := neg_one_le_deg g.s1
  have hr : g.r1 <<< (deg g.r0 - deg g.r1).toNat < 2 ^ 16 := shiftLeft_lt_of_deg (by omega)
  have hs : g.s1 <<< (deg g.r0 - deg g.r1).toNat < 2 ^ 16 := shiftLeft_lt_of_deg (by omega)
  refine ⟨?_, hr1'⟩
  simp only [gfXor, residue_xor, residue_shiftLeft hr, residue_shiftLeft hs, hr0, hr1']
  ring

theorem gfBezout_step {a : Nat} {g : GfPairs} (hr1 : 1 ≤ deg g.r1) (hg : GfBounded g) (h : GfBezout a g) : GfBezout a (gfStep g) := by
  have hxor := gfBezout_xor hr1 hg h
  rcases gfStep_cases g with ⟨_, hstep⟩ | ⟨_, hstep⟩ <;> rw [hstep]
  · exact hxor.symm
  · exact hxor

theorem gfBezout_loop (a : Byte) (fuel : Nat) : GfBezout a.toNat (gfLoop fuel (gfStart a.toNat)) :=
  (gfLoop_invariant (P := fun g => GfBounded g ∧ GfBezout a.toNat g)
    (fun g hr1 ⟨hg, h⟩ => ⟨gfBounded_step g hr1 hg, gfBezout_step hr1 hg h⟩) fuel ⟨gfBounded_start a, gfBezout_start a.toNat⟩).2

/-- The mask has no effect: the coefficient fits 8 bits. -/
theorem toNat_gfInverse (a : Byte) : (gfInverse a).toNat = (gfLoop 16 (gfStart a.toNat)).s1 := by
  have hg := gfBounded_loop a 16
  obtain ⟨_, hs1⟩ := CoeffBound.lt (n := 8) hg.s hg.r0
  rw [gfInverse, BitVec.toNat_ofNat, show 0xFF = 2 ^ 8 - 1 from rfl, Nat.and_two_pow_sub_one_eq_mod, Nat.mod_mod, Nat.mod_eq_of_lt hs1]

/-- The loop ends with remainder 1, whose coefficient is the inverse (R145, fact 4). -/
theorem gfMul_gfInverse {a : Byte} (ha : a ≠ 0#8) : gfMul a (gfInverse a) = 1#8 := by
  obtain ⟨_, hr1⟩ := gfBezout_loop a 16
  rw [gfLoop_of_twelve_le ha 4, gfLoop_twelve_r1 a ha, ← gfLoop_of_twelve_le ha 4, ← toNat_gfInverse] at hr1
  exact byte_eq_of_residue (by rw [residue_gfMul, mul_comm, ← hr1]; rfl)

theorem gfInverse_gfMul {a : Byte} (ha : a ≠ 0#8) : gfMul (gfInverse a) a = 1#8 := by rw [gfMul_comm, gfMul_gfInverse ha]

theorem ne_zero_of_gfMul_eq_one {a b : Byte} (h : gfMul a b = 1#8) : a ≠ 0#8 := by
  rintro rfl
  rw [zero_gfMul] at h
  exact absurd h (by decide)

theorem eq_gfInverse {a b : Byte} (h : gfMul a b = 1#8) : b = gfInverse a := by
  have ha := ne_zero_of_gfMul_eq_one h
  calc b = gfMul (gfMul (gfInverse a) a) b := by rw [gfInverse_gfMul ha, one_gfMul]
    _ = gfInverse a := by rw [gfMul_assoc, h, gfMul_one]

theorem gfInverse_one : gfInverse 1#8 = 1#8 := (eq_gfInverse (gfMul_one 1#8)).symm

/-- Settles O45: an inverse exists (`gfMul_gfInverse`), and multiplication is associative, so there is no other. -/
theorem gfInverseLaws : Obligations.GfInverseLaws := by
  refine ⟨fun a ha => ?_, fun a b => eq_gfInverse, gfInverse_one⟩
  have hinv := gfInverse_gfMul ha
  exact ⟨gfMul_gfInverse ha, (eq_gfInverse hinv).symm, ne_zero_of_gfMul_eq_one hinv⟩

/-- Settles O48, by associativity and the inverse's product. -/
theorem gfDivisionLaws : Obligations.GfDivisionLaws := by
  refine fun a b => ⟨fun hb => ⟨?_, zero_gfMul _, one_gfMul _⟩, ?_⟩
  · rw [gfMul_assoc, gfMul_gfInverse hb, gfMul_one]
  · rw [gfInverse_one, gfMul_one]

/-! ## The commands (R150 to R154) -/

/-- A command that ends by writing a field result completes with that field element, as far as `RES_V` can hold it. -/
theorem writesField_of_conclude {i j : Instr} {s : State} {b : Int} {r : Byte}
    (h : exec i s = conclude s (.ok (putV (fieldResult s j b r) s))) : WritesField i s r.toNat := by
  obtain ⟨⟨_, hlt⟩, hnonneg⟩ := fieldResult_fits s j b r
  have hpow : (0 : Int) < 2 ^ (s.cfg.w - 1) := by positivity
  exact ⟨_, h, hnonneg, hlt, fun hr => fieldResult_of_fits j b ⟨by omega, hr⟩⟩

theorem toNat_ofInt_of_inField {v : Int} (h : InField v) : (BitVec.ofInt 8 v).toNat = v.toNat := by
  obtain ⟨h0, h1⟩ := h
  rw [BitVec.toNat_ofInt]
  omega

theorem ofInt_eq_zero_iff {v : Int} (h : InField v) : BitVec.ofInt 8 v = 0#8 ↔ v = 0 := by
  obtain ⟨h0, h1⟩ := h
  rw [← BitVec.toNat_inj, toNat_ofInt_of_inField ⟨h0, h1⟩, BitVec.toNat_zero]
  omega

theorem fieldOperands_ok {s : State} (ha : InField s.ops.a) (hb : InField s.ops.b) :
    fieldOperands s = .ok (BitVec.ofInt 8 s.ops.a, BitVec.ofInt 8 s.ops.b) := by
  rcases fieldOperands_cases s with ⟨_, h⟩ | ⟨hnot, _⟩
  · exact h
  · exact absurd ⟨ha.1, ha.2, hb⟩ hnot

theorem fieldOperands_error {s : State} (h : ¬(InField s.ops.a ∧ InField s.ops.b)) : fieldOperands s = .error .invalidOperand := by
  rcases fieldOperands_cases s with ⟨⟨ha0, ha1, hb⟩, _⟩ | ⟨_, herr⟩
  · exact absurd ⟨⟨ha0, ha1⟩, hb⟩ h
  · exact herr

/-- The outcome of a command that computes `f` of two field elements and has no failure of its own. -/
def binaryFieldOutcome (i : Instr) (f : Byte → Byte → Byte) (s : State) : Except ErrCode State :=
  match fieldOperands s with
  | .error code => .error code
  | .ok (a, b) => .ok (putV (fieldResult s i s.ops.b (f a b)) s)

theorem exec_gfadd (s : State) : exec .gfadd s = conclude s (binaryFieldOutcome .gfadd (· ^^^ ·) s) := rfl

theorem exec_gfsub (s : State) : exec .gfsub s = conclude s (binaryFieldOutcome .gfsub (· ^^^ ·) s) := rfl

theorem exec_gfmul (s : State) : exec .gfmul s = conclude s (binaryFieldOutcome .gfmul gfMul s) := rfl

section Binary

variable {i : Instr} {f : Byte → Byte → Byte} {s : State} (h : exec i s = conclude s (binaryFieldOutcome i f s))
include h

theorem writesField_binary (ha : InField s.ops.a) (hb : InField s.ops.b) :
    WritesField i s (f (BitVec.ofInt 8 s.ops.a) (BitVec.ofInt 8 s.ops.b)).toNat := by
  rw [binaryFieldOutcome, fieldOperands_ok ha hb] at h
  exact writesField_of_conclude h

theorem endsInError_binary (hnot : ¬(InField s.ops.a ∧ InField s.ops.b)) : EndsInError i s .invalidOperand := by
  rw [binaryFieldOutcome, fieldOperands_error hnot] at h
  exact h

/-- Addition and subtraction: the exclusive or of the bytes is that of the operands. -/
theorem writesField_xor (hf : f = (· ^^^ ·)) (ha : InField s.ops.a) (hb : InField s.ops.b) :
    WritesField i s (s.ops.a.toNat ^^^ s.ops.b.toNat) := by
  have hwrites := writesField_binary h ha hb
  rwa [hf, BitVec.toNat_xor, toNat_ofInt_of_inField ha, toNat_ofInt_of_inField hb] at hwrites

end Binary

/-- Settles O40: the two outcomes of a command on two field elements (`writesField_xor`, `endsInError_binary`). -/
theorem gfaddXorsFieldElements : Obligations.GfaddXorsFieldElements :=
  fun s => ⟨writesField_xor (exec_gfadd s) rfl, endsInError_binary (exec_gfadd s)⟩

/-- Settles O41, as O40: `GFSUB` computes what `GFADD` does (R142). -/
theorem gfsubXorsFieldElements : Obligations.GfsubXorsFieldElements :=
  fun s => ⟨writesField_xor (exec_gfsub s) rfl, endsInError_binary (exec_gfsub s)⟩

/-- Settles O42: what `GFMUL` writes has the residue of the polynomial product (`gfMul_isPolynomialProduct`). -/
theorem gfmulIsPolynomialProduct : Obligations.GfmulIsPolynomialProduct := by
  refine fun s => ⟨fun ha hb => ?_, endsInError_binary (exec_gfmul s)⟩
  have hproduct := gfMul_isPolynomialProduct (BitVec.ofInt 8 s.ops.a) (BitVec.ofInt 8 s.ops.b)
  rw [toNat_ofInt_of_inField ha, toNat_ofInt_of_inField hb] at hproduct
  exact ⟨_, BitVec.isLt _, writesField_binary (exec_gfmul s) ha hb, hproduct⟩

theorem exec_gfinv_of_not_inField {s : State} (h : ¬InField s.ops.a) : exec .gfinv s = conclude s (.error .invalidOperand) := by
  rw [exec, execGfinv, fieldElement_error (by unfold InField at h; omega)]

theorem exec_gfinv_of_zero {s : State} (h : s.ops.a = 0) : exec .gfinv s = conclude s (.error .zeroNoInverse) := by
  rw [exec, execGfinv, h]; rfl

theorem exec_gfinv_of_ne_zero {s : State} (ha : InField s.ops.a) (h : BitVec.ofInt 8 s.ops.a ≠ 0#8) :
    exec .gfinv s = conclude s (.ok (putV (fieldResult s .gfinv 0 (gfInverse (BitVec.ofInt 8 s.ops.a))) s)) := by
  rw [exec, execGfinv, fieldElement_ok ha.1 ha.2]
  simp only [if_neg h]

/-- Settles O46: `GFINV` writes the inverse, whose product with `A` is 1 (`gfMul_gfInverse`). -/
theorem gfinvInvertsOrFails : Obligations.GfinvInvertsOrFails := by
  refine fun s => ⟨fun h1 h255 => ?_, exec_gfinv_of_zero, exec_gfinv_of_not_inField⟩
  have ha : InField s.ops.a := ⟨by omega, h255⟩
  have hne : BitVec.ofInt 8 s.ops.a ≠ 0#8 := (ofInt_eq_zero_iff ha).not.mpr (by omega)
  refine ⟨_, BitVec.isLt _, writesField_of_conclude (exec_gfinv_of_ne_zero ha hne), ?_⟩
  rw [BitVec.ofNat_toNat, BitVec.setWidth_eq]
  exact gfMul_gfInverse hne

theorem exec_gfdiv_of_error {s : State} {c : ErrCode} (h : fieldOperands s = .error c) : exec .gfdiv s = conclude s (.error c) := by
  rw [exec, execGfdiv, h]

theorem exec_gfdiv_of_zero {s : State} {a : Byte} (h : fieldOperands s = .ok (a, 0#8)) :
    exec .gfdiv s = conclude s (.error .divByZero) := by
  rw [exec, execGfdiv, h]; rfl

theorem exec_gfdiv_of_ne_zero {s : State} {a b : Byte} (h : fieldOperands s = .ok (a, b)) (hb : b ≠ 0#8) :
    exec .gfdiv s = conclude s (.ok (putV (fieldResult s .gfdiv s.ops.b (gfMul a (gfInverse b))) s)) := by
  rw [exec, execGfdiv, h]
  simp only [if_neg hb]

/-- Settles O47: `GFDIV` writes `A` times the inverse of `B`, and times `B` that is `A`. -/
theorem gfdivDividesOrFails : Obligations.GfdivDividesOrFails := by
  refine fun s => ⟨fun ha hb hne => ?_, fun ha hzero => ?_, fun hnot => exec_gfdiv_of_error (fieldOperands_error hnot)⟩
  · have hb0 : BitVec.ofInt 8 s.ops.b ≠ 0#8 := (ofInt_eq_zero_iff hb).not.mpr hne
    refine ⟨_, BitVec.isLt _, writesField_of_conclude (exec_gfdiv_of_ne_zero (fieldOperands_ok ha hb) hb0), ?_⟩
    rw [BitVec.ofNat_toNat, BitVec.setWidth_eq, gfMul_assoc, gfInverse_gfMul hb0, gfMul_one]
  · have hops := fieldOperands_ok ha (show InField s.ops.b from ⟨hzero.ge, by omega⟩)
    rw [hzero] at hops
    exact exec_gfdiv_of_zero hops

end Sys2Proof.Machine
end

section
/-! PROOFS. O49 to O55: the matrix operand's checks, the adjugate's multiple as an inverse modulo M, the Hill round trip,
and the key loader. -/

namespace Sys2Proof.Machine

open Sys2Proof.Config Matrix

/-! ## The matrix operand's checks (R174) -/

section Checks

variable {s : State} {n : Nat} {i : Instr} {c : ErrCode}

theorem matrixDimension_of_zero (h : s.ops.n.toNat = 0) : matrixDimension s = .error .invalidOperand := if_pos h

theorem matrixDimension_of_nmax_lt (h1 : 1 ≤ s.ops.n.toNat) (h : s.cfg.nmax < s.ops.n.toNat) :
    matrixDimension s = .error .unsupportedSize := by
  rw [matrixDimension, if_neg (by omega), if_pos h]

theorem matrixDimension_of_modulus_lt (h1 : 1 ≤ s.ops.n.toNat) (hn : s.ops.n.toNat ≤ s.cfg.nmax) (h : s.ops.m < 1) :
    matrixDimension s = .error .invalidOperand := by
  rw [matrixDimension, if_neg (by omega), if_neg (by omega), if_pos h]

/-- Past the first three checks the fourth decides. -/
theorem matrixDimension_of_modulus_pos (h1 : 1 ≤ s.ops.n.toNat) (hn : s.ops.n.toNat ≤ s.cfg.nmax) (hm : 1 ≤ s.ops.m) :
    matrixDimension s =
      if entriesInRange s.ops.n.toNat s.ops.m (matrixOperand s) then .ok s.ops.n.toNat else .error .invalidOperand := by
  rw [matrixDimension, if_neg (by omega), if_neg (by omega), if_neg (by omega)]

theorem matrixDimension_eq_ok_iff : matrixDimension s = .ok n ↔ MatrixAccepted s n := by
  constructor
  · intro h
    obtain ⟨rfl, haccepted⟩ := matrixDimension_ok h
    exact ⟨rfl, haccepted⟩
  · rintro ⟨rfl, h1, hn, hm, hrange⟩
    exact (matrixDimension_of_modulus_pos h1 hn hm).trans (if_pos (entriesInRange_iff.mpr hrange))

theorem MatrixAccepted.modulus_pos (h : MatrixAccepted s n) : 0 < s.ops.m := by
  obtain ⟨-, -, -, hm, -⟩ := h
  exact hm

theorem MatrixAccepted.le_nmax (h : MatrixAccepted s n) : n ≤ s.cfg.nmax := by
  obtain ⟨-, -, hn, -⟩ := h
  exact hn

/-- Both commands that read the matrix operand end with the error its checks give. -/
theorem endsInError_of_matrixDimension (hi : i = .detmod ∨ i = .matinv) (h : matrixDimension s = .error c) : EndsInError i s c := by
  rcases hi with rfl | rfl
  · rw [EndsInError, exec, execDetmod, h]; rfl
  · rw [EndsInError, exec, execMatinv, h]; rfl

end Checks

/-- Settles O49, by the order of the checks in `matrixDimension`. -/
theorem matrixChecksComeInOrder : Obligations.MatrixChecksComeInOrder := by
  intro s i hi
  refine ⟨fun h => ?_, fun hn h1 => ?_, fun h1 hn hm => ?_, fun h1 hn hm hbad => ?_⟩ <;> refine endsInError_of_matrixDimension hi ?_
  · exact matrixDimension_of_zero h
  · exact matrixDimension_of_nmax_lt h1 hn
  · exact matrixDimension_of_modulus_lt h1 hn hm
  · rw [matrixDimension_of_modulus_pos h1 hn hm, if_neg]
    obtain ⟨p, hp, q, hq, hout⟩ := hbad
    intro hall
    obtain ⟨h0, hlt⟩ : 0 ≤ gridEntry s.ops.matIn p q ∧ gridEntry s.ops.matIn p q < s.ops.m := entriesInRange_iff.mp hall p hp q hq
    omega

/-! ## `DETMOD` (R172, R173, R183) -/

/-- The determinant of R173 is the library's, reduced. -/
theorem detMod_eq_det_emod {s : State} {n : Nat} (h : MatrixAccepted s n) :
    detMod n s.ops.m (matrixOperand s) = (inputMatrix s n).det % s.ops.m := by
  rw [detMod, floormod_eq_emod _ h.modulus_pos.le, det_eq]
  rfl

/-- Settles O50: past the checks `DETMOD` writes `detMod`, the library's determinant reduced (`detMod_eq_det_emod`). -/
theorem detmodWritesTheDeterminant : Obligations.DetmodWritesTheDeterminant := by
  intro s n h
  rw [WritesV, exec, execDetmod, matrixDimension_eq_ok_iff.mpr h, ← detMod_eq_det_emod h]
  rfl

/-! ## Products modulo m -/

section Residues

variable {n : Nat} {m : Int}

theorem dotProduct_modEq {u u' v v' : Fin n → Int} (hu : ∀ k, u k ≡ u' k [ZMOD m]) (hv : ∀ k, v k ≡ v' k [ZMOD m]) :
    u ⬝ᵥ v ≡ u' ⬝ᵥ v' [ZMOD m] :=
  Int.ModEq.sum fun k _ => (hu k).mul (hv k)

/-- A multiple of the adjugate by an inverse of the determinant modulo m is a two-sided inverse modulo m (R177). -/
theorem smul_adjugate_inverse {S R : Matrix (Fin n) (Fin n) Int} {dinv : Int} (hR : ∀ i j, R i j ≡ dinv * S.adjugate i j [ZMOD m])
    (hdet : dinv * S.det ≡ 1 [ZMOD m]) (i j : Fin n) :
    (S * R) i j ≡ (1 : Matrix (Fin n) (Fin n) Int) i j [ZMOD m] ∧ (R * S) i j ≡ (1 : Matrix (Fin n) (Fin n) Int) i j [ZMOD m] := by
  have hone : ((dinv * S.det) • (1 : Matrix (Fin n) (Fin n) Int)) i j ≡ (1 : Matrix (Fin n) (Fin n) Int) i j [ZMOD m] := by
    simpa using hdet.mul_right ((1 : Matrix (Fin n) (Fin n) Int) i j)
  constructor
  · calc (S * R) i j ≡ (S * dinv • S.adjugate) i j [ZMOD m] := dotProduct_modEq (fun _ => rfl) fun k => hR k j
      _ = ((dinv * S.det) • (1 : Matrix (Fin n) (Fin n) Int)) i j := by rw [Matrix.mul_smul, mul_adjugate, smul_smul]
      _ ≡ _ [ZMOD m] := hone
  · calc (R * S) i j ≡ (dinv • S.adjugate * S) i j [ZMOD m] := dotProduct_modEq (hR i) fun _ => rfl
      _ = ((dinv * S.det) • (1 : Matrix (Fin n) (Fin n) Int)) i j := by rw [Matrix.smul_mul, adjugate_mul, smul_smul]
      _ ≡ _ [ZMOD m] := hone

/-- A left inverse modulo m undoes a product reduced modulo m (R181). -/
theorem mulVec_emod_mulVec {R S : Matrix (Fin n) (Fin n) Int} (v : Fin n → Int)
    (hone : ∀ i j, (R * S) i j ≡ (1 : Matrix (Fin n) (Fin n) Int) i j [ZMOD m]) (i : Fin n) :
    (R *ᵥ fun k => (S *ᵥ v) k % m) i ≡ v i [ZMOD m] :=
  calc (R *ᵥ fun k => (S *ᵥ v) k % m) i ≡ (R *ᵥ (S *ᵥ v)) i [ZMOD m] := dotProduct_modEq (fun _ => rfl) fun _ => Int.mod_modEq _ _
    _ = ((R * S) *ᵥ v) i := by rw [mulVec_mulVec]
    _ ≡ ((1 : Matrix (Fin n) (Fin n) Int) *ᵥ v) i [ZMOD m] := dotProduct_modEq (hone i) fun _ => rfl
    _ = v i := by rw [one_mulVec]

end Residues

/-! ## Matrix register arrays -/

/-- The entries of a whole array whose square fits it, at every index. -/
theorem gridEntry_gridOf_of_le {nmax n : Nat} (hn : n ≤ nmax) (f : Nat → Nat → Int) (i j : Nat) :
    gridEntry (gridOf nmax n f) i j = if i < n ∧ j < n then f i j else 0 := by
  by_cases hi : i < nmax
  · by_cases hj : j < nmax
    · exact gridEntry_gridOf f hi hj
    · rw [if_neg (by omega)]
      simp [gridEntry, gridOf, hi, hj]
  · rw [if_neg (by omega)]
    simp [gridEntry, gridOf, hi]

/-! ## `MATINV` (R176, R177, R184) -/

/-- An entry of the inverse `MATINV` writes (R177). -/
def inverseEntry (s : State) (n : Nat) (dinv : Int) (i j : Nat) : Int := floormod (dinv * adj n (matrixOperand s) i j) s.ops.m

section Matinv

variable {s : State} {n : Nat} (h : MatrixAccepted s n)
include h

/-- Past the checks, the modular inverse of the determinant decides how `MATINV` ends. -/
theorem exec_matinv_of_accepted :
    exec .matinv s = conclude s
      ((inverseMod .notInvertibleModM ((inputMatrix s n).det % s.ops.m) s.ops.m).map fun dinv =>
        putInverse n ((inputMatrix s n).det % s.ops.m) (inverseEntry s n dinv) s) := by
  rw [exec, execMatinv, matrixDimension_eq_ok_iff.mpr h, ← detMod_eq_det_emod h]
  dsimp only
  cases inverseMod .notInvertibleModM (detMod n s.ops.m (matrixOperand s)) s.ops.m <;> rfl

theorem inverseEntry_range (dinv : Int) (i j : Nat) : 0 ≤ inverseEntry s n dinv i j ∧ inverseEntry s n dinv i j < s.ops.m :=
  ⟨floormod_nonneg _ h.modulus_pos, floormod_lt _ h.modulus_pos⟩

theorem inverseEntry_modEq (dinv : Int) (i j : Fin n) :
    inverseEntry s n dinv i j ≡ dinv * (inputMatrix s n).adjugate i j [ZMOD s.ops.m] := by
  rw [inverseEntry, floormod_eq_emod _ h.modulus_pos.le, adj_eq]
  exact Int.mod_modEq _ _

end Matinv

/-- Settles O51: the modular inverse of the determinant fails (`inverseMod_cases`). -/
theorem matinvFailsOnSharedFactor : Obligations.MatinvFailsOnSharedFactor := by
  intro s n h hgcd
  rcases inverseMod_cases .notInvertibleModM ((inputMatrix s n).det % s.ops.m) h.modulus_pos with ⟨_, hinv⟩ | ⟨hone, _⟩
  · rw [EndsInError, exec_matinv_of_accepted h, hinv]; rfl
  · exact absurd hone hgcd

/-- Settles O52: the square of `MAT_OUT` is the adjugate times an inverse of the determinant, reduced (`smul_adjugate_inverse`). -/
theorem matinvWritesTheInverse : Obligations.MatinvWritesTheInverse := by
  intro s n h hgcd
  rcases inverseMod_cases .notInvertibleModM ((inputMatrix s n).det % s.ops.m) h.modulus_pos with
    ⟨hne, _⟩ | ⟨_, dinv, hinv, -, -, hdvd⟩
  · exact absurd hgcd hne
  have hexec := exec_matinv_of_accepted h
  rw [hinv] at hexec
  have hentry := gridEntry_gridOf_of_le h.le_nmax (inverseEntry s n dinv)
  have hdet : dinv * (inputMatrix s n).det ≡ 1 [ZMOD s.ops.m] :=
    calc dinv * (inputMatrix s n).det
        ≡ dinv * ((inputMatrix s n).det % s.ops.m) [ZMOD s.ops.m] := (Int.mod_modEq _ _).symm.mul_left dinv
      _ = (inputMatrix s n).det % s.ops.m * dinv := mul_comm ..
      _ ≡ 1 [ZMOD s.ops.m] := (Int.modEq_iff_dvd.mpr hdvd).symm
  refine ⟨_, hexec, rfl, gridOf_length .., fun row hrow => (gridOf_rows hrow).1, fun i hi j hj => ?_, fun i j hout => ?_, ?_⟩
  · show 0 ≤ gridEntry (gridOf _ _ _) i j ∧ gridEntry (gridOf _ _ _) i j < _
    rw [hentry, if_pos ⟨hi, hj⟩]
    exact inverseEntry_range h dinv i j
  · exact (hentry i j).trans (if_neg hout)
  · refine smul_adjugate_inverse (fun i j => ?_) hdet
    show gridEntry (gridOf _ _ _) i j ≡ _ [ZMOD s.ops.m]
    rw [hentry, if_pos ⟨i.isLt, j.isLt⟩]
    exact inverseEntry_modEq h dinv i j

/-! ## The Hill cipher's round trip (R181) -/

theorem EndsInError.status_err {i : Instr} {s t : State} {c : ErrCode} (h : EndsInError i s c) (ht : exec i s = .next t) :
    t.status.err = true := by
  cases h.symm.trans ht
  rfl

/-- `MATINV` succeeds only past R174's checks, with a determinant coprime with the modulus. -/
theorem matinv_success {s t : State} (ht : exec .matinv s = .next t) (herr : t.status.err = false) :
    MatrixAccepted s s.ops.n.toNat ∧ Int.gcd ((inputMatrix s s.ops.n.toNat).det % s.ops.m) s.ops.m = 1 := by
  have noError (c : ErrCode) : ¬EndsInError .matinv s c := fun h => by simp [h.status_err ht] at herr
  cases hdim : matrixDimension s with
  | error c => exact absurd (endsInError_of_matrixDimension (.inr rfl) hdim) (noError c)
  | ok n =>
    obtain ⟨rfl, -⟩ := matrixDimension_ok hdim
    have haccepted := matrixDimension_eq_ok_iff.mp hdim
    exact ⟨haccepted, by_contra fun hgcd => noError _ (matinvFailsOnSharedFactor s _ haccepted hgcd)⟩

/-- Settles O53: what `MATINV` writes is a left inverse modulo 26 (O52), which undoes the encryption (`mulVec_emod_mulVec`). -/
theorem hillRoundTrip : Obligations.HillRoundTrip := by
  intro s t v hm ht herr hv i hi
  obtain ⟨haccepted, hgcd⟩ := matinv_success ht herr
  obtain ⟨t', ht', -, -, -, -, -, hone⟩ := matinvWritesTheInverse s _ haccepted hgcd
  cases ht.symm.trans ht'
  rw [hm] at hone
  have hround := mulVec_emod_mulVec (m := 26) (fun k => v k) (fun i j => (hone i j).2) ⟨i, hi⟩
  have hsmall : v i % 26 = v i := Int.emod_eq_of_lt (hv i hi).1 (by linarith [(hv i hi).2])
  simp only [Finset.sum_range]
  exact hround.eq.trans hsmall

/-! ## `MATKEY` (R179, R180, R182, R185) -/

theorem letterIndex_of_isLetter {c : Byte} (h : IsLetter c) : ∃ k, letterIndex c = some k ∧ (k : Int) = letterValue c := by
  unfold letterIndex letterValue
  rcases h with ⟨hlo, hhi⟩ | ⟨hlo, hhi⟩
  · exact ⟨_, if_pos ⟨hlo, by simp only [alpha]; omega⟩, by rw [if_pos hhi]; omega⟩
  · rw [if_neg (by simp only [alpha]; omega), if_pos ⟨hlo, by simp only [alpha]; omega⟩]
    exact ⟨_, rfl, by rw [if_neg (by omega)]; omega⟩

theorem letterIndex_isSome_iff {c : Byte} : (letterIndex c).isSome = true ↔ IsLetter c := by
  refine ⟨fun h => ?_, fun h => ?_⟩
  · by_contra hnot
    unfold IsLetter at hnot
    unfold letterIndex at h
    rw [if_neg (by simp only [alpha]; omega), if_neg (by simp only [alpha]; omega)] at h
    contradiction
  · obtain ⟨k, hk, -⟩ := letterIndex_of_isLetter h
    rw [hk]; rfl

theorem keyEntry_eq_letterValue {s : State} {n i j : Nat} (h : IsLetter (keyCharacter s (i * n + j))) :
    keyEntry s n i j = letterValue (keyCharacter s (i * n + j)) := by
  obtain ⟨k, hk, hval⟩ := letterIndex_of_isLetter h
  rw [keyEntry, hk]
  exact hval

section Key

variable {s : State} {n : Nat}

theorem keyDimension_of_not_square (h : s.ops.keyLen.toNat = 0 ∨ ∀ n, n * n ≠ s.ops.keyLen.toNat) :
    keyDimension s = .error .invalidKeyLength :=
  if_pos (h.imp_right fun hne => hne _)

/-- On a length that is the square of n >= 1 the last two checks decide, with n for the dimension. -/
theorem keyDimension_of_square (h1 : 1 ≤ n) (hsq : n * n = s.ops.keyLen.toNat) :
    keyDimension s =
      if n > s.cfg.nmax ∨ s.cfg.w < 6 then .error .unsupportedSize
      else if keyIsLetters s (n * n) then .ok n else .error .invalidOperand := by
  have hpos : 0 < n * n := Nat.mul_pos h1 h1
  simp only [keyDimension, ← hsq, isqrt_mul_self]
  rw [if_neg (by omega)]

theorem keyIsLetters_iff_isLetter {len : Nat} : keyIsLetters s len = true ↔ ∀ k < len, IsLetter (keyCharacter s k) := by
  simp only [keyIsLetters_iff, letterIndex_isSome_iff]

theorem exec_matkey_of_error {c : ErrCode} (h : keyDimension s = .error c) : exec .matkey s = conclude s (.error c) := by
  rw [exec, execMatkey, h]

theorem exec_matkey_of_ok (h : keyDimension s = .ok n) : exec .matkey s = conclude s (.ok (putKey n (keyEntry s n) s)) := by
  rw [exec, execMatkey, h]

end Key

/-- Settles O54: the integer square root finds the dimension (`keyDimension_of_square`), and each letter's index is its value. -/
theorem matkeyLoadsTheKeyMatrix : Obligations.MatkeyLoadsTheKeyMatrix := by
  intro s n hlen h1 hn hw hletters
  have hdim : keyDimension s = .ok n := by
    rw [keyDimension_of_square h1 hlen.symm, if_neg (by omega), if_pos (keyIsLetters_iff_isLetter.mpr hletters)]
  have hentry := gridEntry_gridOf_of_le hn (keyEntry s n)
  refine ⟨_, exec_matkey_of_ok hdim, rfl, ?_, gridOf_length .., fun row hrow => (gridOf_rows hrow).1, fun i hi j hj => ?_,
    fun i j hout => (hentry i j).trans (if_neg hout)⟩
  · have hbyte := s.ops.keyLen.isLt
    show (BitVec.ofNat 8 n).toNat = n
    rw [BitVec.toNat_ofNat]
    exact Nat.mod_eq_of_lt (by nlinarith)
  · have hk : i * n + j < n * n := by nlinarith
    exact (hentry i j).trans ((if_pos ⟨hi, hj⟩).trans (keyEntry_eq_letterValue (hletters _ hk)))

/-- Settles O55, by the order of the checks in `keyDimension`. -/
theorem matkeyChecksComeInOrder : Obligations.MatkeyChecksComeInOrder := by
  intro s
  refine ⟨fun hlen => ?_, fun n h1 hsq hsize => ?_, fun n h1 hsq hn hw hbad => ?_⟩ <;> refine exec_matkey_of_error ?_
  · exact keyDimension_of_not_square hlen
  · rw [keyDimension_of_square h1 hsq, if_pos hsize]
  · obtain ⟨k, hk, hnot⟩ := hbad
    rw [keyDimension_of_square h1 hsq, if_neg (by omega), if_neg fun hall => hnot (keyIsLetters_iff_isLetter.mp hall k hk)]

end Sys2Proof.Machine
end

section
/-! PROOFS. O3, O5 to O9 and O16: the engine's turn and its schedule, the write of `CMD` idle and busy, and the two ways in which every
command ends: with its writes, or with an error completion that has a code. -/

namespace Sys2Proof.Machine

open Sys2Proof.Config

/-! ## Completion (R205 to R207, R209) -/

/-- Settles O8, by the two ways in which a command ends (`exec_cases`): an error completion sets `ERR`. -/
theorem successSetsDoneAndKeepsRej : Obligations.SuccessSetsDoneAndKeepsRej := by
  intro i s t h herr
  rcases exec_cases h with ⟨hcfg, hcmd, henv, hst⟩ | ⟨c, rfl⟩
  · exact ⟨hst, hcmd, hcfg, henv⟩
  · rw [raiseErr_status, Status.failed_err] at herr; contradiction

theorem fieldOperands_error_code {s : State} {c : ErrCode} (h : fieldOperands s = .error c) : c ≠ .none := by
  rcases fieldOperands_cases s with ⟨_, hf⟩ | ⟨_, hf⟩ <;> rw [hf] at h <;> cases h
  decide

/-- Every command ends by `conclude`, and no check of an operand fails with the code `NONE` (R209): on every state, well-formed or not. -/
theorem exec_conclude_ne_error_none (i : Instr) (s : State) : ∃ r, exec i s = conclude s r ∧ r ≠ .error .none := by
  cases i with
  | extgcd => exact ⟨.ok _, rfl, nofun⟩
  | modinv =>
    refine ⟨_, rfl, fun hr => ?_⟩
    split at hr
    · contradiction
    · split at hr
      · contradiction
      · next hc => cases hr; exact absurd (inverseMod_error_code hc) nofun
  | gfadd | gfsub | gfmul =>
    refine ⟨_, rfl, fun hr => ?_⟩
    split at hr
    · next hc => cases hr; exact fieldOperands_error_code hc rfl
    · contradiction
  | gfinv =>
    refine ⟨_, rfl, fun hr => ?_⟩
    split at hr
    · next hc => cases hr; exact fieldElement_error_code hc rfl
    · split at hr <;> contradiction
  | gfdiv =>
    refine ⟨_, rfl, fun hr => ?_⟩
    split at hr
    · next hc => cases hr; exact fieldOperands_error_code hc rfl
    · split at hr <;> contradiction
  | detmod =>
    refine ⟨_, rfl, fun hr => ?_⟩
    split at hr
    · next hc => cases hr; exact matrixDimension_error_code hc rfl
    · contradiction
  | matinv =>
    refine ⟨_, rfl, fun hr => ?_⟩
    split at hr
    · next hc => cases hr; exact matrixDimension_error_code hc rfl
    · dsimp only at hr
      split at hr
      · next hc => cases hr; exact absurd (inverseMod_error_code hc) nofun
      · contradiction
  | matkey =>
    refine ⟨_, rfl, fun hr => ?_⟩
    split at hr
    · next hc => cases hr; exact keyDimension_error_code hc rfl
    · contradiction

/-- Settles O9: a command that sets `ERR` ended by `raiseErr`, which changes `STATUS` alone, with a code that is not `NONE`
(`exec_conclude_ne_error_none`). -/
theorem errorChangesStatusAlone : Obligations.ErrorChangesStatusAlone := by
  intro i s t h herr
  obtain ⟨r, hr, hcode⟩ := exec_conclude_ne_error_none i s
  rcases conclude_cases (hr.symm.trans h) with ⟨u, _, rfl⟩ | ⟨c, rfl, rfl⟩
  · rw [complete_status, Status.completed_err] at herr; contradiction
  · exact ⟨rfl, fun hc => hcode (congrArg Except.error hc)⟩

/-! ## The engine's turn (R205, R208) -/

theorem step_of_engineTurn_of_decode {s : State} {i : Instr} (h : EngineTurn s) (hd : decode s.cmd = .ok i) :
    step s = exec i (popTurn s) := by
  rw [step_of_engineTurn h, completionStep, popTurn_cmd, hd]

theorem withFetchWord_engineTurn (s : State) (nbits w : Nat) : EngineTurn (s.withFetchWord nbits w) :=
  ⟨rfl, .inr ⟨s.env.turns, rfl⟩⟩

/-- Nothing of a command word is lost on its way through the port. -/
theorem withFetchWord_cmd (s : State) (w : CmdWord) : (s.withFetchWord 32 w.toNat).cmd = w := by
  show (BitVec.ofNat 64 (w.toNat % 2 ^ 32)).setWidth 32 = w
  rw [Nat.mod_eq_of_lt w.isLt, BitVec.ofNat_toNat, BitVec.setWidth_setWidth_of_le _ (by decide), BitVec.setWidth_eq]

/-- Past the engine's turn that `State.withFetchWord` schedules, only the acceptance is left of it (R203). -/
theorem popTurn_withFetchWord (s : State) (nbits w : Nat) :
    popTurn (s.withFetchWord nbits w) = { s with cmd := (s.withFetchWord nbits w).cmd, status := Status.accepted } := rfl

/-- Settles O3: the engine's turn is a completion (`step_of_engineTurn`), and the word of a command decodes to it (`decode_encode`). -/
theorem stepPerformsDecodedCommand : Obligations.StepPerformsDecodedCommand := by
  refine ⟨fun s i => step_of_engineTurn_of_decode, fun s i => ?_⟩
  have hcmd := withFetchWord_cmd s (encode i)
  rw [step_of_engineTurn_of_decode (withFetchWord_engineTurn ..) (hcmd ▸ decode_encode i), popTurn_withFetchWord, hcmd]
  rfl

/-- Settles O5: no schedule makes an idle engine step (`nextMove_completion`), and one that begins with its turn makes a busy one step. -/
theorem engineEnabledExactlyWhileBusy : Obligations.EngineEnabledExactlyWhileBusy := by
  intro s
  constructor
  · rintro ⟨turns, h⟩
    exact nextMove_completion (s := { s with env := { s.env with turns := turns } }) h
  · exact fun hbusy => ⟨[.engine], nextMove_of_engineTurn ⟨hbusy, .inr ⟨[], rfl⟩⟩⟩

/-! ## The write of `CMD` (R203, R204) -/

theorem regAt_cmd (p : Params) : regAt p 0x001#12 = some .cmd := regAt_scalar (by decide)

theorem hostWrite_cmd_of_idle {s : State} (d : PortWord) (hidle : s.status.busy = false) :
    hostWrite 0x001#12 d s = accept d s := by
  unfold hostWrite
  simp [regAt_cmd, regAccess, hidle]

theorem hostWrite_cmd_of_busy {s : State} (d : PortWord) (hbusy : s.status.busy = true) : hostWrite 0x001#12 d s = reject s :=
  hostWrite_of_busy d (regAt_cmd s.cfg) nofun hbusy

/-- Settles O6: on the host's turn the step is the write (O56), which while idle is an acceptance whatever the word. -/
theorem commandWriteWhileIdleIsAccepted : Obligations.CommandWriteWhileIdleIsAccepted := by
  intro s data rest h hidle
  rw [(hostTurnPerformsTheTransaction s rest).1 _ data h, hostWrite_cmd_of_idle data, BitVec.ofNat_toNat]
  · rfl
  · exact hidle

/-- Settles O7: on the host's turn the step is the write (O56), which while busy is dropped. -/
theorem commandWriteWhileBusyIsRejected : Obligations.CommandWriteWhileBusyIsRejected := by
  intro s data rest h hbusy
  rw [(hostTurnPerformsTheTransaction s rest).1 _ data h, hostWrite_cmd_of_busy data]
  · rfl
  · exact hbusy

/-! ## Totality (R207, R212) -/

/-- Settles O16, by the kind of the next move: a completion answers a next state whatever word `CMD` holds (`completionStep_done`). -/
theorem everyStepAnswersNext : Obligations.EveryStepAnswersNext := by
  intro s
  unfold step
  cases nextMove s with
  | completion =>
    obtain ⟨t, ht, _⟩ := completionStep_done (popTurn s)
    exact ⟨t, ht⟩
  | transaction op => exact ⟨hostStep op (popTurn s), rfl⟩
  | reset => exact ⟨resetStep (popTurn s), rfl⟩
  | nothing => exact ⟨popTurn s, rfl⟩

end Sys2Proof.Machine
end

section
/-! PROOFS. O18, O20 and O21: every register after reset, the reset step, and each command on the state that reset leaves. -/

namespace Sys2Proof.Machine

open Sys2Proof.Config

/-! ## Registers after reset (R230) -/

theorem gridEntry_zeroGrid (nmax i j : Nat) : gridEntry (zeroGrid nmax) i j = 0 := by
  simp only [gridEntry, zeroGrid, List.getD_eq_getElem?_getD, List.getElem?_replicate]
  by_cases hi : i < nmax <;> by_cases hj : j < nmax <;> simp [hi, hj]

theorem readTrace_zero (f : TraceField) : readTrace TraceRow.zero f = 0#64 := by
  cases f <;> rfl

theorem word_idle : Status.idle.word = 0#32 := by decide

theorem readReg_resetFor (p : Params) {r : Reg} (hr : r ≠ .cfg) : readReg (State.resetFor p) r = 0#64 := by
  cases r with
  | cfg => exact absurd rfl hr
  | keyChar k => exact congrArg (BitVec.setWidth 64) (List.getElem?_getD_replicate_default_eq _ _ k)
  | matIn i j | matOut i j => exact congrArg widenSigned (gridEntry_zeroGrid p.nmax i j)
  | trace k f =>
    have hrow : (State.resetFor p).res.trace.getD k TraceRow.zero = TraceRow.zero := List.getElem?_getD_replicate_default_eq _ _ k
    rw [readReg, hrow, readTrace_zero]
  | status => exact congrArg (BitVec.setWidth 64) word_idle
  | cmd | a | b | m | n | keyLen | resG | resX | resY | resV | traceLen => rfl

/-- Settles O18, by the register that is read (`readReg_resetFor`). -/
theorem resetLeavesEveryRegisterZero : Obligations.ResetLeavesEveryRegisterZero :=
  ⟨fun p _ _ hr => readReg_resetFor p hr, fun _ => ⟨rfl, rfl⟩, by decide⟩

/-! ## The reset step (R231, R232) -/

theorem nextMove_of_resetTurn {s : State} {ts : List Turn} (h : s.env.turns = .reset :: ts) : nextMove s = .reset := by
  rw [nextMove, h]

/-- Settles O20: on a reset turn the step is `resetStep`, whatever `STATUS` and the program are. -/
theorem resetAbandonsTheCommand : Obligations.ResetAbandonsTheCommand := by
  intro s ts h
  rw [step, nextMove_of_resetTurn h, resetStep, popTurn_cfg, popTurn_env, h, List.tail_cons]

/-! ## Commands on the reset state (R234) -/

/-- The reset state just after the acceptance of the command word `w` (R203). -/
def acceptedOnReset (p : Params) (w : Nat) : State :=
  { State.resetFor p with cmd := BitVec.ofNat 32 w, status := Status.accepted }

theorem withFetchWord_cmd_eq_ofNat (s : State) (w : Nat) : (s.withFetchWord 32 w).cmd = BitVec.ofNat 32 w := by
  apply BitVec.eq_of_toNat_eq
  show ((BitVec.ofNat 64 (w % 2 ^ 32)).setWidth 32).toNat = _
  simp only [BitVec.toNat_setWidth, BitVec.toNat_ofNat]
  omega

theorem popTurn_resetFor_withFetchWord (p : Params) (w : Nat) :
    popTurn ((State.resetFor p).withFetchWord 32 w) = acceptedOnReset p w := by
  rw [popTurn_withFetchWord, withFetchWord_cmd_eq_ofNat]
  rfl

theorem inField_zero : InField 0 := ⟨le_rfl, by decide⟩

section OnReset

variable {p : Params} {w : Nat} {i : Instr} (hd : decode (BitVec.ofNat 32 w) = .ok i)
include hd

/-- The step after the acceptance is the command that the word decodes to, on operands that are all 0. -/
theorem step_resetFor_withFetchWord : step ((State.resetFor p).withFetchWord 32 w) = exec i (acceptedOnReset p w) := by
  rw [step_of_engineTurn_of_decode (withFetchWord_engineTurn ..) (withFetchWord_cmd_eq_ofNat _ w ▸ hd),
    popTurn_resetFor_withFetchWord]

theorem step_resetFor_of_endsInError {c : ErrCode} (h : EndsInError i (acceptedOnReset p w) c) :
    step ((State.resetFor p).withFetchWord 32 w)
      = .next { State.resetFor p with cmd := BitVec.ofNat 32 w, status := statusErr Status.idle c } :=
  (step_resetFor_withFetchWord hd).trans h

/-- A command that computes a field element of two and gets 0 from two zeros writes to `RES_V` the value it has from reset. -/
theorem step_resetFor_of_binaryField {f : Byte → Byte → Byte}
    (h : exec i (acceptedOnReset p w) = conclude (acceptedOnReset p w) (binaryFieldOutcome i f (acceptedOnReset p w)))
    (hf : f 0#8 0#8 = 0#8) :
    step ((State.resetFor p).withFetchWord 32 w)
      = .next { State.resetFor p with cmd := BitVec.ofNat 32 w, status := statusDone Status.idle } := by
  have hwrites : WritesField i (acceptedOnReset p w) (f 0#8 0#8).toNat := writesField_binary h inField_zero inField_zero
  rw [hf] at hwrites
  obtain ⟨v, hv, -, -, hfits⟩ := hwrites
  obtain rfl : v = 0 := hfits (show (0 : Int) < _ by positivity)
  exact (step_resetFor_withFetchWord hd).trans hv

end OnReset

/-- A run of no iterations leaves every row as it is from reset. -/
theorem map_traceRow_nil (depth : Nat) : (List.range depth).map (traceRow []) = List.replicate depth TraceRow.zero := by
  rw [List.eq_replicate_iff]
  simp [traceRow_of_le]

/-- `EXTGCD` of 0 and 0 runs no iteration (`euclid_zero`): it writes 1 to `RES_X` and leaves every other result as it is from reset. -/
theorem exec_extgcd_acceptedOnReset (p : Params) (w : Nat) :
    exec .extgcd (acceptedOnReset p w)
      = .next { acceptedOnReset p w with res := { Results.reset p with x := 1 }, status := statusDone Status.idle } := by
  show Host.Outcome.next
    { acceptedOnReset p w with
      res := { Results.reset p with x := 1, trace := (List.range p.traceDepth).map (traceRow []) }
      status := statusDone Status.idle } = _
  rw [map_traceRow_nil]
  rfl

/-- Settles O21: each word is accepted with every operand 0 (`step_resetFor_withFetchWord`), and the command's outcome on those operands is
the one its own rules give. -/
theorem commandsOnTheResetState : Obligations.CommandsOnTheResetState := by
  obtain ⟨hextgcd, hmodinv, hgfadd, hgfsub, hgfmul, hgfinv, hgfdiv, hdetmod, hmatinv, hmatkey⟩ := commandWordsDecode
  intro p _ after s
  refine ⟨?extgcd, ?modinv, ?gfadd, ?gfsub, ?gfmul, ?gfinv, ?gfdiv, ?detmod, ?matinv, ?matkey, ?zero⟩
  case extgcd => exact (step_resetFor_withFetchWord hextgcd).trans (exec_extgcd_acceptedOnReset p _)
  case modinv => exact step_resetFor_of_endsInError hmodinv (exec_modinv_of_lt Int.zero_lt_one)
  case gfadd => exact step_resetFor_of_binaryField hgfadd (exec_gfadd _) rfl
  case gfsub => exact step_resetFor_of_binaryField hgfsub (exec_gfsub _) rfl
  case gfmul => exact step_resetFor_of_binaryField hgfmul (exec_gfmul _) (zero_gfMul _)
  case gfinv => exact step_resetFor_of_endsInError hgfinv (exec_gfinv_of_zero rfl)
  case gfdiv =>
    exact step_resetFor_of_endsInError hgfdiv (exec_gfdiv_of_zero (fieldOperands_ok inField_zero inField_zero))
  case detmod =>
    exact step_resetFor_of_endsInError hdetmod (endsInError_of_matrixDimension (.inl rfl) (matrixDimension_of_zero rfl))
  case matinv =>
    exact step_resetFor_of_endsInError hmatinv (endsInError_of_matrixDimension (.inr rfl) (matrixDimension_of_zero rfl))
  case matkey => exact step_resetFor_of_endsInError hmatkey (exec_matkey_of_error (keyDimension_of_not_square (.inl rfl)))
  case zero =>
    refine illegalWordEndsInIllegalCmd _ (withFetchWord_engineTurn ..) (.inr ?_)
    rw [withFetchWord_cmd_eq_ofNat]
    decide

end Sys2Proof.Machine
end
